-- ==== Sys2Proof/Word.lean ====
section
/-! DEFINITION. The words of the LCM Float24 block: a byte of a string or a command word, the 24-bit data
word, a decimal digit, and the four character codes the block reads. -/

namespace Sys2Proof

/-- One byte: an element of a string (R10) or the command word `cw[7:0]` (R50). -/
abbrev Byte := BitVec 8

/-- A Float24 word `w` with `0 ≤ w < 2^24`; bit 23 is its most significant bit (R27, R41). -/
abbrev Word24 := BitVec 24

/-- One decimal digit, `0 … 9` (R49). -/
abbrev Digit := Fin 10

/-- `'0'` (R10). -/
def chZero : Byte := 0x30#8

/-- `'1'` (R10). -/
def chOne : Byte := 0x31#8

/-- `'.'` (R10). -/
def chDot : Byte := 0x2E#8

/-- `'b'` (R10). -/
def chB : Byte := 0x62#8

end Sys2Proof
end

