-- ==== Sys2Proof/Config.lean ====
section
/-! DEFINITION. What is fixed when a block is built: the constants of R6, the build parameters of R7 that a
command's result depends on (`BuildParams`), and the types of the three parameters that only the
serialized artifacts depend on. -/

namespace Sys2Proof.Config

/-- `W_F24`, `W_SIGN`, `W_EXP`, `W_FRAC` (R6). -/
def wF24 : Nat := 24
/-- Width of the sign field (R6). -/
def wSign : Nat := 1
/-- Width of the exponent field (R6). -/
def wExp : Nat := 7
/-- Width of the fraction field (R6). -/
def wFrac : Nat := 16
/-- `BIAS` (R6). -/
def bias : Nat := 63
/-- `EXP_MIN`, the least legal exponent field (R6). -/
def expMin : Nat := 0
/-- `EXP_MAX`, the greatest legal exponent field (R6). -/
def expMax : Nat := 127

end Sys2Proof.Config

namespace Sys2Proof

/-- `TIE_MODE`, the tie rule of the decimal rounding (R7, R11, D14). -/
inductive TieMode where
  | halfEven
  | halfUp
deriving DecidableEq, Repr

/-- `TABLE_DIGIT_CODE` (R7, R29, D18): OPEN in the spec, an argument of the serialization only. -/
inductive DigitCode where
  | ascii
  | binary
deriving DecidableEq, Repr

/-- `FLOAT24_BYTE_ORDER` (R7, R28, D20): OPEN in the spec, an argument of the serialization only. -/
inductive ByteOrder where
  | big
  | little
deriving DecidableEq, Repr

/-- The settings a real build needs (R18): hardwired for the life of the block, written by no command
and not changed by reset (R14, R107). -/
structure BuildParams where
  /-- `TIE_MODE`. -/
  tieMode : TieMode
  /-- `DEC_IN_WIDTH`: width of the `DEC` operand port, at least 25. -/
  decInWidth : Nat
  /-- `PARSE_MAX_LEN`: longest string `PARSE` accepts, `none` for no limit. -/
  parseMaxLen : Option Nat
  /-- `MAX_TABLE_BITS`: largest `B` that `PTGEN` and `FRAC2D` accept, `none` for no limit. -/
  maxTableBits : Option Nat
deriving DecidableEq, Repr

/-- The default column of R7's table. -/
def BuildParams.defaults : BuildParams where
  tieMode := .halfEven
  decInWidth := 32
  parseMaxLen := none
  maxTableBits := none

/-- R7: `DEC_IN_WIDTH` is at least 25. -/
def BuildParams.wf (b : BuildParams) : Bool := decide (25 ≤ b.decInWidth)

end Sys2Proof
end

