-- ==== Sys2Proof/Syntax.lean ====
section
/-! DEFINITION. The commands of the block (one constructor per row of the opcode table), and the form in
which a host issues one: a command word followed by a tuple of operand values. -/

namespace Sys2Proof

/-- The five commands of R51 with the operands of R53. Operands are values, not register numbers or
addresses, and each is exact. -/
inductive Instr where
  /-- `PARSE s` (R60). -/
  | parse (s : List Byte)
  /-- `ENC x` (R74). -/
  | enc (x : Rat)
  /-- `DEC n` (R64). -/
  | dec (n : Nat)
  /-- `PTGEN D, P` (R88). -/
  | ptgen (d : Nat) (p : Rat)
  /-- `FRAC2D i, B, D` (R89). -/
  | frac2d (i b d : Nat)
deriving DecidableEq, Repr

/-- The operation a command word selects (R51). -/
inductive Opcode where
  | PARSE
  | ENC
  | DEC
  | PTGEN
  | FRAC2D
deriving DecidableEq, Repr

/-- The operand types of R53: a string of bytes, a rational, a natural number. -/
inductive OperandKind where
  | bytes
  | rat
  | nat
deriving DecidableEq, Repr

/-- One operand value as the host presents it (R53). -/
inductive Operand where
  | bytes (s : List Byte)
  | rat (q : Rat)
  | nat (n : Nat)
deriving DecidableEq, Repr

/-- What the host issues: a command word followed by operands (R50). -/
structure RawCommand where
  word : Byte
  operands : List Operand
deriving DecidableEq, Repr

end Sys2Proof
end

