-- ==== Sys2Proof/WellFormed.lean ====
section
/-! DEFINITION. Well-formedness of commands, and the grammar of a binary-fraction string. -/

namespace Sys2Proof

/-- A command that a host can present to a block built with `b`: the `DEC` operand fits the operand port
(R53, D7). Every other operand is a value of its type, and any value of the type may be presented: a string
longer than `PARSE_MAX_LEN` is presented and raises `FormatError` (R58.6, R60). -/
def Instr.wf (b : BuildParams) : Instr → Bool
  | .parse _ => true
  | .enc _ => true
  | .dec n => decide (n < 2 ^ b.decInWidth)
  | .ptgen _ _ => true
  | .frac2d _ _ _ => true

/-- The byte is `'0'` or `'1'`. -/
def isBit (c : Byte) : Bool := c == chZero || c == chOne

/-- `Digits ::= ( '0' | '1' )+` (R48). -/
def IsDigits (s : List Byte) : Prop := s ≠ [] ∧ ∀ c ∈ s, isBit c = true

/-- `BinaryFraction ::= Prefix? Digits ( '.' Digits )?` with `Prefix ::= "0b"` (R48). -/
def IsBinaryFraction (s : List Byte) : Prop :=
  ∃ pre ip fp : List Byte,
    (pre = [] ∨ pre = [chZero, chB]) ∧ IsDigits ip ∧
    (fp = [] ∨ ∃ ds, IsDigits ds ∧ fp = chDot :: ds) ∧
    s = pre ++ ip ++ fp

end Sys2Proof
end

