-- ==== Sys2Proof/Decode.lean ====
section
/-! DEFINITION. The opcode map, the decoder (total, rejecting by name) and the encoder. The command word is
one byte, all opcode (R50, R55); the operand tuple's shape is fixed by the opcode alone (R53, R55). -/

namespace Sys2Proof

/-- One row of the opcode table: the words `w` with `w &&& mask = pattern` select `op`. -/
structure OpcodeRow where
  op : Opcode
  pattern : Byte
  mask : Byte
deriving DecidableEq, Repr

/-- The opcode map of R51, row for row. -/
def opcodeTable : List OpcodeRow :=
  [ ⟨.PARSE, 0x01#8, 0xFF#8⟩,
    ⟨.ENC, 0x02#8, 0xFF#8⟩,
    ⟨.DEC, 0x03#8, 0xFF#8⟩,
    ⟨.PTGEN, 0x04#8, 0xFF#8⟩,
    ⟨.FRAC2D, 0x05#8, 0xFF#8⟩ ]

/-- The operation a command word selects, `none` for an illegal word (R51, R52). -/
def decodeOpcode (w : Byte) : Option Opcode :=
  (opcodeTable.find? (fun r => w &&& r.mask == r.pattern)).map (·.op)

/-- Why a command is not decoded. -/
inductive DecodeError where
  /-- The word is not in the opcode map (R52). -/
  | illegalWord (w : Byte)
  /-- The word is in the opcode map, and the operands are not that opcode's tuple (excluded by R53, R55). -/
  | operandShape (w : Byte)
deriving DecidableEq, Repr

/-- The operand types of each opcode, in order (R53). -/
def operandKinds : Opcode → List OperandKind
  | .PARSE => [.bytes]
  | .ENC => [.rat]
  | .DEC => [.nat]
  | .PTGEN => [.nat, .rat]
  | .FRAC2D => [.nat, .nat, .nat]

/-- The type of an operand value. -/
def operandKind : Operand → OperandKind
  | .bytes _ => .bytes
  | .rat _ => .rat
  | .nat _ => .nat

/-- The operands are the opcode's tuple; an illegal word may come with anything, since it reads none (R52, R53). -/
def RawCommand.wellShaped (c : RawCommand) : Bool :=
  match decodeOpcode c.word with
  | none => true
  | some op => decide (c.operands.map operandKind = operandKinds op)

/-- Reads the operand tuple of an opcode, in the order of R53. -/
def readOperands (op : Opcode) (os : List Operand) : Option Instr :=
  match op with
  | .PARSE => match os with
    | [.bytes s] => some (.parse s)
    | _ => none
  | .ENC => match os with
    | [.rat x] => some (.enc x)
    | _ => none
  | .DEC => match os with
    | [.nat n] => some (.dec n)
    | _ => none
  | .PTGEN => match os with
    | [.nat d, .rat p] => some (.ptgen d p)
    | _ => none
  | .FRAC2D => match os with
    | [.nat i, .nat b, .nat d] => some (.frac2d i b d)
    | _ => none

/-- The decoder. An illegal word is rejected before any operand is looked at (R52, R96). -/
def decode (c : RawCommand) : Except DecodeError Instr :=
  match decodeOpcode c.word with
  | none => .error (.illegalWord c.word)
  | some op => match readOperands op c.operands with
    | none => .error (.operandShape c.word)
    | some i => .ok i

/-- The command word of an opcode (R51). -/
def encodeOpcode : Opcode → Byte
  | .PARSE => 0x01#8
  | .ENC => 0x02#8
  | .DEC => 0x03#8
  | .PTGEN => 0x04#8
  | .FRAC2D => 0x05#8

/-- The opcode of a command. -/
def Instr.opcode : Instr → Opcode
  | .parse _ => .PARSE
  | .enc _ => .ENC
  | .dec _ => .DEC
  | .ptgen _ _ => .PTGEN
  | .frac2d _ _ _ => .FRAC2D

/-- The operand tuple of a command, in the order of R53. -/
def Instr.operands : Instr → List Operand
  | .parse s => [.bytes s]
  | .enc x => [.rat x]
  | .dec n => [.nat n]
  | .ptgen d p => [.nat d, .rat p]
  | .frac2d i b d => [.nat i, .nat b, .nat d]

/-- The encoder: the command word followed by the operand tuple (R50). -/
def encode (i : Instr) : RawCommand := ⟨encodeOpcode i.opcode, i.operands⟩

/-- The zero value of an operand type: the empty string, 0 and 0. -/
def zeroOperand : OperandKind → Operand
  | .bytes => .bytes []
  | .rat => .rat 0
  | .nat => .nat 0

/-- The operand tuple of zeros that goes with a command word; an illegal word has no operands (R52). -/
def zeroOperands (w : Byte) : List Operand :=
  match decodeOpcode w with
  | none => []
  | some op => (operandKinds op).map zeroOperand

/-- The command that a bare table word stands for: the word with operands of zeros. -/
def tableCommand (nbits w : Nat) : RawCommand :=
  ⟨BitVec.ofNat 8 (w % 2 ^ nbits), zeroOperands (BitVec.ofNat 8 (w % 2 ^ nbits))⟩

/-- The command the decoder reads from an opcode-table word. A command word is exactly one byte (R55), so
another number of bits is refused. -/
def decodeTableWord (nbits w : Nat) : Option Instr :=
  if nbits = 8 ∧ w < 256 then
    match decode (tableCommand nbits w) with
    | .ok i => some i
    | .error _ => none
  else none

end Sys2Proof
end

