-- ==== Sys2Proof/Machine/State.lean ====
section
/-! DEFINITION. The state of the block: `RESP` (R19), and the model's own two fields, the parameters the
block was built with and the host's inputs that it has not yet taken. -/

namespace Sys2Proof.Machine

/-- The status codes of `RESP` (R19, R91). -/
inductive Status where
  | ok
  | formatError
  | rangeError
  | domainError
  | illegalOp
deriving DecidableEq, Repr

/-- The errors a command can raise (R91): every status but `OK`. -/
inductive ErrorKind where
  | formatError
  | rangeError
  | domainError
  | illegalOp
deriving DecidableEq, Repr

/-- The value a command returns (R19). -/
inductive Result where
  /-- `Rat(q)`: `PARSE`, `DEC`. -/
  | rat (q : Rat)
  /-- `Word24(w)`: `ENC`. -/
  | word24 (w : Word24)
  /-- `Table(bitsRequired, byteSize, entries)`: `PTGEN`. -/
  | table (bitsRequired byteSize : Nat) (entries : List (List Digit))
  /-- `Digits(ds)`: `FRAC2D`. -/
  | digits (ds : List Digit)
deriving DecidableEq, Repr

/-- `Response ::= { status, result : Option Result }` (R19). -/
structure Response where
  status : Status
  result : Option Result
deriving DecidableEq, Repr

/-- What the world outside can do to the block: issue a command, or reset the block between commands
(R13, R109). A read of `RESP` changes nothing (R21), so it is no event. -/
inductive HostEvent where
  | issue (c : RawCommand)
  | reset
deriving DecidableEq, Repr

/-- The state. `resp` is the block's only architectural state (R19). `build` and `inbox` are the MODEL's
own fields: `build` is the argument that R7 says a model takes (no step changes it), `inbox` holds the
host's inputs in the order of issue (R36), oldest first. -/
structure State where
  /-- `RESP : Option Response`; `none` means that no command has completed since reset (R19). -/
  resp : Option Response
  /-- The build parameters (R7, R18); not state of the block. -/
  build : BuildParams
  /-- What the host has issued and the block has not taken; not state of the block. -/
  inbox : List HostEvent
deriving DecidableEq, Repr

/-- Nothing stops the block: every error is a response and the next command is accepted (R90, R98), so
there is no fault and this type has no constructor. -/
inductive Fault where
deriving DecidableEq, Repr

/-- Why a step has no meaning. -/
inductive Refusal where
  /-- Raised by `exec` for a command whose meaning is not written. Safe: the machine stops. No command of
  this model is in that case. -/
  | notModelled (mnemonic : String)
  /-- Raised by `step` when the host presents a defined command word with operands that are not that
  opcode's tuple. R53 and R55 fix the tuple by the opcode alone, so no command of the spec is in that
  case. Safe: the machine stops. -/
  | operandShape (word : Byte)
deriving DecidableEq, Repr

/-- After reset `RESP = none` and no command is in progress (R25, R107). The build parameters are R7's
defaults, and the host has issued nothing. -/
def State.reset : State where
  resp := none
  build := BuildParams.defaults
  inbox := []

end Sys2Proof.Machine
end

