-- ==== Sys2Proof/Machine/Ops.lean ====
section
/-! DEFINITION. The shared operations: ending a command and raising an error (the one write of `RESP`), the
host's read, reset and issue, and the exact arithmetic and text primitives of R8 to R11. -/

namespace Sys2Proof.Machine

/-- The status an error is reported as (R91). -/
def ErrorKind.status : ErrorKind → Status
  | .formatError => .formatError
  | .rangeError => .rangeError
  | .domainError => .domainError
  | .illegalOp => .illegalOp

/-- `return v`: the command ends with status `OK` and result `v` (R12, R20). -/
def State.complete (s : State) (v : Result) : State :=
  { s with resp := some ⟨.ok, some v⟩ }

/-- `raise E`: the command ends with status `E` and no result. Taking an error is this one write: no state
is saved, no mode changes and control goes nowhere (R90, R97). -/
def State.raise (s : State) (e : ErrorKind) : State :=
  { s with resp := some ⟨e.status, none⟩ }

/-- The end of a command: `RESP` is written exactly once (R20). There is no return from an error, because the
block accepts the next command as it is (R98). -/
def State.respond (s : State) : Except ErrorKind Result → State
  | .ok v => s.complete v
  | .error e => s.raise e

/-- The host's read of `RESP`: no side effect, and no value when `RESP = none` (R21). -/
def State.readResp (s : State) : Option Response := s.resp

/-- Reset: `RESP` becomes `none` and nothing else changes (R107, R109). -/
def State.hostReset (s : State) : State := { s with resp := none }

/-- The host issues commands, after those it has issued already (R36). -/
def State.issueAll (s : State) (cs : List RawCommand) : State :=
  { s with inbox := s.inbox ++ cs.map HostEvent.issue }

/-- The state once the oldest input has been taken. -/
def State.taken (s : State) : State := { s with inbox := s.inbox.tail }

/-- The optional limit is set and `n` is above it (R60, R83.4, R89). -/
def exceeds (limit : Option Nat) (n : Nat) : Bool :=
  match limit with
  | none => false
  | some m => decide (m < n)

/-- `2^k` for an integer `k` (R9). -/
def pow2 : Int → Rat
  | .ofNat n => ((2 ^ n : Nat) : Rat)
  | .negSucc n => 1 / ((2 ^ (n + 1) : Nat) : Rat)

/-- `|x|` (R9). -/
def magnitude (x : Rat) : Rat := if x < 0 then -x else x

/-- `floor(log2 a)` for `a > 0`: the integer `k` with `2^k ≤ a < 2^(k+1)` (R69). The bit lengths of numerator
and denominator leave two candidates. -/
def floorLog2 (a : Rat) : Int :=
  let k : Int := (Nat.log2 a.num.natAbs : Int) - (Nat.log2 a.den : Int)
  if pow2 k ≤ a then k else k - 1

/-- `trunc16(r)` (R11). -/
def trunc16 (r : Rat) : Nat := (r * ((2 ^ 16 : Nat) : Rat)).floor.toNat

/-- `roundTie(q)` for `q ≥ 0` (R11): the nearest integer, a tie going by `TIE_MODE`. -/
def roundTie (mode : TieMode) (q : Rat) : Nat :=
  let f : Nat := q.floor.toNat
  let r : Rat := q - (f : Rat)
  if r < 1 / 2 then f
  else if 1 / 2 < r then f + 1
  else match mode with
    | .halfUp => f + 1
    | .halfEven => if f % 2 = 0 then f else f + 1

/-- The character of a binary digit. -/
def bitChar (b : Bool) : Byte := if b then chOne else chZero

/-- `bin_n(v)`: the `n` binary digits of `v`, most significant first (R10). -/
def binStr : Nat → Nat → List Byte
  | 0, _ => []
  | n + 1, v => binStr n (v / 2) ++ [bitChar (v % 2 == 1)]

/-- `dec_n(v)`: the `n` decimal digits of `v`, most significant first (R10). -/
def decDigits : Nat → Nat → List Digit
  | 0, _ => []
  | n + 1, v => decDigits n (v / 10) ++ [⟨v % 10, Nat.mod_lt v (by decide)⟩]

end Sys2Proof.Machine
end

