-- ==== Sys2Proof/Machine/BinaryFraction.lean ====
section
/-! DEFINITION. The binary-fraction parser: `bfparse` (R57) and the command `PARSE` (R60). -/

namespace Sys2Proof.Machine

/-- Strips an `0b` that stands at index 0, once only (R57). -/
def stripBinaryMark (s : List Byte) : List Byte :=
  if s.take 2 = [chZero, chB] then s.drop 2 else s

/-- `digit('0') = 0`, `digit('1') = 1` (R57). -/
def digitOf (c : Byte) : Nat := if c = chOne then 1 else 0

/-- The integer part as a base-2 unsigned integer, most significant digit first (R57). -/
def integerPart (ip : List Byte) : Nat := ip.foldl (fun v c => 2 * v + digitOf c) 0

/-- The fraction digits, left to right, with the running divisor `f` that is doubled before each digit (R57). -/
def fractionPart : List Byte → Nat → Rat → Rat
  | [], _, v => v
  | c :: cs, f, v => fractionPart cs (2 * f) (v + (digitOf c : Rat) / ((2 * f : Nat) : Rat))

/-- A run of one or more binary digits (R48, D8). -/
def isDigitRun (s : List Byte) : Bool := !s.isEmpty && s.all isBit

/-- The bytes before the first point, and those after it where there is a point. -/
def splitPoint (t : List Byte) : List Byte × Option (List Byte) :=
  if t.contains chDot then
    (t.takeWhile (fun c => c != chDot), some ((t.dropWhile (fun c => c != chDot)).drop 1))
  else (t, none)

/-- `bfparse(s)` (R57): the exact value of a binary-fraction string, or `FormatError`. -/
def bfparse (s : List Byte) : Except ErrorKind Rat :=
  let t := stripBinaryMark s
  if 1 < t.count chDot then .error .formatError
  else
    match splitPoint t with
    | (ip, none) =>
      if isDigitRun ip then .ok (integerPart ip : Rat) else .error .formatError
    | (ip, some fp) =>
      if !isDigitRun ip then .error .formatError
      else if !isDigitRun fp then .error .formatError
      else .ok (fractionPart fp 1 (integerPart ip : Rat))

/-- What `PARSE s` returns or raises (R60): the length check, then `bfparse`. -/
def parseOutcome (b : BuildParams) (str : List Byte) : Except ErrorKind Result :=
  if exceeds b.parseMaxLen str.length then .error .formatError
  else match bfparse str with
    | .error e => .error e
    | .ok v => .ok (.rat v)

/-- `PARSE s` (R60). -/
def execParse (str : List Byte) (s : State) : Host.Outcome State Fault Refusal :=
  .next (s.respond (parseOutcome s.build str))

end Sys2Proof.Machine
end

