-- ==== Sys2Proof/Machine/Operands.lean ====
section
/-! DEFINITION. The operand forms: the field split and packing of a Float24 word, the width check of the `DEC`
operand port, and the exact value of a binary64 operand that a host holds. -/

namespace Sys2Proof.Machine

/-- The sign bit `w[23]` (R41). -/
def signBit (w : Word24) : Bool := w.getLsbD 23

/-- The exponent field `w[22:16]` (R41). -/
def exponentField (w : Word24) : Nat := (w.extractLsb' 16 7).toNat

/-- The fraction field `w[15:0]` (R41). -/
def fractionField (w : Word24) : Nat := (w.extractLsb' 0 16).toNat

/-- `(s << 23) | (E << 16) | Fr` (R41, R73). -/
def packWord (s : Bool) (e fr : Nat) : Word24 :=
  BitVec.ofNat 24 ((s.toNat <<< 23) ||| (e <<< 16) ||| fr)

/-- The check of a realisation whose `DEC` port has `width` bits: some bit `n[j]` with `24 ≤ j < width`
is 1 (R62). -/
def decPortRangeError (width n : Nat) : Bool :=
  (List.range width).any (fun j => decide (24 ≤ j) && n.testBit j)

/-- The exact rational value of a binary64 value, which a host that holds one gives to `ENC` or `PTGEN`
(R53); both zeros are 0 (R67). An infinity or a NaN is no rational, so it is no operand.
PRESUMED: the IEEE-754 layout (log entry 6). -/
def binary64Value (v : BitVec 64) : Option Rat :=
  let e : Nat := (v.extractLsb' 52 11).toNat
  let m : Nat := (v.extractLsb' 0 52).toNat
  let sg : Rat := if v.getLsbD 63 then -1 else 1
  if e = 2047 then none
  else if e = 0 then some (sg * (m : Rat) * pow2 (-1074))
  else some (sg * ((2 ^ 52 + m : Nat) : Rat) * pow2 ((e : Int) - 1075))

end Sys2Proof.Machine
end

