-- ==== Sys2Proof/Machine/Float24.lean ====
section
/-! DEFINITION. The Float24 codec: the value of a word (R44), the command `DEC` (R64), the command `ENC` (R74),
and the encoder's two loops as the source writes them (R69, R72). -/

namespace Sys2Proof.Machine

/-- `f24val(w)`, the value of a Float24 word (R44). -/
def f24val (w : Word24) : Rat :=
  if w = 0#24 then 0
  else (if signBit w then -1 else 1) * pow2 ((exponentField w : Int) - (Config.bias : Int)) *
    (1 + (fractionField w : Rat) / ((2 ^ 16 : Nat) : Rat))

/-- `decodeFloat24(n)` (R64), step by step: range check, zero, sign, exponent, and the mantissa by the parser on
`"1." ++ b⟨8..24)`. -/
def decodeFloat24 (n : Nat) : Except ErrorKind Rat :=
  if 2 ^ Config.wF24 ≤ n then .error .rangeError
  else if n = 0 then .ok 0
  else
    let w : Word24 := BitVec.ofNat 24 n
    let b : List Byte := binStr 24 n
    let sg : Rat := if signBit w then -1 else 1
    let e : Int := (exponentField w : Int) - (Config.bias : Int)
    match bfparse ([chOne, chDot] ++ b.drop 8) with
    | .error k => .error k
    | .ok m => .ok (sg * pow2 e * m)

/-- What `DEC n` returns or raises (R64). -/
def decOutcome (n : Nat) : Except ErrorKind Result :=
  match decodeFloat24 n with
  | .error e => .error e
  | .ok q => .ok (.rat q)

/-- `DEC n` (R64). -/
def execDec (n : Nat) (s : State) : Host.Outcome State Fault Refusal :=
  .next (s.respond (decOutcome n))

/-- The exponent field is outside `[EXP_MIN, EXP_MAX]` (R70). -/
def exponentOutOfRange (e : Int) : Bool :=
  decide (e < (Config.expMin : Int)) || decide ((Config.expMax : Int) < e)

/-- `encodeFloat24(x)` (R74): zero, sign, normalization, exponent check, remainder, truncation, packing. -/
def encodeFloat24 (x : Rat) : Except ErrorKind Word24 :=
  if x = 0 then .ok 0#24
  else
    let s : Bool := decide (x < 0)
    let a : Rat := magnitude x
    let shift : Int := floorLog2 a
    let e : Int := shift + (Config.bias : Int)
    if exponentOutOfRange e then .error .rangeError
    else .ok (packWord s e.toNat (trunc16 (a / pow2 shift - 1)))

/-- What `ENC x` returns or raises (R74). -/
def encOutcome (x : Rat) : Except ErrorKind Result :=
  match encodeFloat24 x with
  | .error e => .error e
  | .ok w => .ok (.word24 w)

/-- `ENC x` (R74). -/
def execEnc (x : Rat) (s : State) : Host.Outcome State Fault Refusal :=
  .next (s.respond (encOutcome x))

/-- The normalization loop of R69, for at most as many iterations as the first argument says; a zero
argument is the early stop that R69 allows. It answers the magnitude and the count `shift`. -/
def normalizeLoop : Nat → Rat → Int → Rat × Int
  | 0, a, shift => (a, shift)
  | n + 1, a, shift =>
    if 2 ≤ a then normalizeLoop n (a / 2) (shift + 1)
    else if a < 1 then normalizeLoop n (a * 2) (shift - 1)
    else (a, shift)

/-- The greedy fraction loop of R72: `factor` is halved, then compared with the remainder `r`. -/
def fractionLoop : Nat → Rat → Rat → Nat → Nat
  | 0, _, _, fr => fr
  | n + 1, factor, r, fr =>
    if factor / 2 ≤ r then fractionLoop n (factor / 2) (r - factor / 2) (2 * fr + 1)
    else fractionLoop n (factor / 2) r (2 * fr)

/-- The encoder by the source's own loops (R67 to R73): normalization stops after 65 iterations, when `shift`
has left `[-63, 64]`; then sixteen fraction bits. -/
def encodeByLoops (x : Rat) : Except ErrorKind Word24 :=
  if x = 0 then .ok 0#24
  else
    let s : Bool := decide (x < 0)
    let n : Rat × Int := normalizeLoop 65 (magnitude x) 0
    let e : Int := n.2 + (Config.bias : Int)
    if exponentOutOfRange e then .error .rangeError
    else .ok (packWord s e.toNat (fractionLoop 16 1 (n.1 - 1) 0))

end Sys2Proof.Machine
end

