-- ==== Sys2Proof/Machine/PrecisionTable.lean ====
section
/-! DEFINITION. Fixed-point fractions to D-digit decimals: the command `PTGEN` (R88), with its raw entries (R84)
and the rounding-overflow correction (R85), and the command `FRAC2D` (R89). -/

namespace Sys2Proof.Machine

/-- `bitsRequired(D, P) = ceil(−log2(P^D))`, exactly: the least integer `n` with `2^-n ≤ P^D` (R81). -/
def bitsRequired (d : Nat) (p : Rat) : Int := -floorLog2 (p ^ d)

/-- `byteSize = D · 2^B` (R82). -/
def byteSize (d b : Nat) : Nat := d * 2 ^ b

/-- The decimal fraction `0.d_1 … d_D` that an entry denotes: `d_1` has weight `10^-1` (R49). -/
def entryValue : List Digit → Rat
  | [] => 0
  | d :: ds => ((d.val : Rat) + entryValue ds) / 10

/-- `raw(i, B, D)` (R84): render `i` in `B` bits, parse `"0." ++ bin_B(i)`, round to `D` decimal digits and
keep the digits after the point. -/
def rawEntry (mode : TieMode) (b d i : Nat) : Except ErrorKind (List Digit) :=
  match bfparse ([chZero, chDot] ++ binStr b i) with
  | .error e => .error e
  | .ok q => .ok (decDigits d (roundTie mode (q * ((10 ^ d : Nat) : Rat)) % 10 ^ d))

/-- The raw entries of the indices, in order; an error of one entry would end the command (R12). -/
def rawEntries (mode : TieMode) (b d : Nat) : List Nat → Except ErrorKind (List (List Digit))
  | [] => .ok []
  | i :: is =>
    match rawEntry mode b d i with
    | .error e => .error e
    | .ok t =>
      match rawEntries mode b d is with
      | .error e => .error e
      | .ok ts => .ok (t :: ts)

/-- The raw table: the entries of `0 … 2^B − 1`, in index order (R88). -/
def rawTable (mode : TieMode) (b d : Nat) : Except ErrorKind (List (List Digit)) :=
  rawEntries mode b d (List.range (2 ^ b))

/-- The scan of R85 over the table from its highest index downward: entries equal to `dec_D(0)` become
`dec_D(10^D − 1)`, up to the first entry that is not all zeros. -/
def correctDown (d : Nat) : List (List Digit) → List (List Digit)
  | [] => []
  | e :: es => if e = decDigits d 0 then decDigits d (10 ^ d - 1) :: correctDown d es else e :: es

/-- `correct(T)` (R85). -/
def correctTable (d : Nat) (t : List (List Digit)) : List (List Digit) :=
  (correctDown d t.reverse).reverse

/-- What `PTGEN D, P` returns or raises (R88): the four domain checks of R83 in order, then the table. -/
def ptgenOutcome (bp : BuildParams) (d : Nat) (p : Rat) : Except ErrorKind Result :=
  if d = 0 then .error .domainError
  else if p ≤ 0 then .error .domainError
  else if bitsRequired d p < 1 then .error .domainError
  else if exceeds bp.maxTableBits (bitsRequired d p).toNat then .error .domainError
  else
    let b : Nat := (bitsRequired d p).toNat
    match rawTable bp.tieMode b d with
    | .error e => .error e
    | .ok t => .ok (.table b (byteSize d b) (correctTable d t))

/-- `PTGEN D, P` (R88). -/
def execPtgen (d : Nat) (p : Rat) (s : State) : Host.Outcome State Fault Refusal :=
  .next (s.respond (ptgenOutcome s.build d p))

/-- `n = roundTie(i · 10^D / 2^B)` (R86, R89). -/
def roundedEntry (mode : TieMode) (i b d : Nat) : Nat :=
  roundTie mode (((i * 10 ^ d : Nat) : Rat) / ((2 ^ b : Nat) : Rat))

/-- What `FRAC2D i, B, D` returns or raises (R89): the domain checks, then the index check, then the clamped
entry. -/
def frac2dOutcome (bp : BuildParams) (i b d : Nat) : Except ErrorKind Result :=
  if d = 0 ∨ b = 0 then .error .domainError
  else if exceeds bp.maxTableBits b then .error .domainError
  else if 2 ^ b ≤ i then .error .rangeError
  else .ok (.digits (decDigits d (min (roundedEntry bp.tieMode i b d) (10 ^ d - 1))))

/-- `FRAC2D i, B, D` (R89). -/
def execFrac2d (i b d : Nat) (s : State) : Host.Outcome State Fault Refusal :=
  .next (s.respond (frac2dOutcome s.build i b d))

end Sys2Proof.Machine
end

