-- ==== Sys2Proof/Machine/Dispatch.lean ====
section
/-! DEFINITION. One arm per command of the block. -/

namespace Sys2Proof.Machine

/-- What a command does. -/
def exec (i : Instr) (s : State) : Host.Outcome State Fault Refusal :=
  match i with
  | .parse str => Sys2Proof.Machine.execParse str s
  | .enc x => Sys2Proof.Machine.execEnc x s
  | .dec n => Sys2Proof.Machine.execDec n s
  | .ptgen d p => Sys2Proof.Machine.execPtgen d p s
  | .frac2d k b d => Sys2Proof.Machine.execFrac2d k b d s

end Sys2Proof.Machine
end

