-- ==== Sys2Proof/Machine/Command.lean ====
section
/-! DEFINITION. How the block takes the host's inputs: a command word is decoded before anything else (R96), an
illegal word raises `IllegalOp`, a command is executed, and a reset clears `RESP`. -/

namespace Sys2Proof.Machine

/-- A command the host has issued. An illegal word is not executed, and its operands are not read (R52, R95).
DESIGN CHOICE (log entry 3): a defined word with operands of another shape is refused. -/
def stepCommand (c : RawCommand) (s : State) : Host.Outcome State Fault Refusal :=
  match decode c with
  | .ok i => exec i s
  | .error (.illegalWord _) => .next (s.raise .illegalOp)
  | .error (.operandShape w) => .refused (.operandShape w)

/-- The block takes the oldest input: one command is one atomic step (R13), and reset happens between
commands (R109). DESIGN CHOICE (log entry 2): with nothing issued the block stays as it is, since only a
command writes `RESP` (R20). -/
def takeInput (s : State) : Host.Outcome State Fault Refusal :=
  match s.inbox with
  | [] => .next s
  | .reset :: _ => .next s.taken.hostReset
  | .issue c :: _ => stepCommand c s.taken

/-- The host issues this command before anything it has issued already. -/
def State.issueFirst (s : State) (c : RawCommand) : State :=
  { s with inbox := .issue c :: s.inbox }

end Sys2Proof.Machine
end

