-- ==== Sys2Proof/Machine/Step.lean ====
section
/-! DEFINITION. One step of the block, and the state whose next step runs a given table word. -/

namespace Sys2Proof.Machine

/-- One step: the block takes the oldest input of the host. -/
def step (s : State) : Host.Outcome State Fault Refusal := takeInput s

/-- The state in which the next command the block takes is the table word `w` with operands of zeros: the
host issues it before anything else. -/
def State.withFetchWord (s : State) (nbits w : Nat) : State :=
  s.issueFirst (tableCommand nbits w)

end Sys2Proof.Machine
end

