-- ==== Sys2Proof/Machine/Assembler.lean ====
section
/-! DEFINITION. The assembler syntax of R56: a line is a mnemonic, then its operands separated by commas; `#`
starts a comment; `.word 0xHH` emits one raw command word. What R56 leaves open of the syntax is log
entry 7. -/

namespace Sys2Proof.Machine

/-- A blank between the parts of a line. -/
def isBlank (c : Char) : Bool := c.toNat == 0x20 || c.toNat == 0x09

/-- The text without blanks at either end. -/
def trimBlanks (cs : List Char) : List Char :=
  ((cs.dropWhile isBlank).reverse.dropWhile isBlank).reverse

/-- The pieces between the separators; one piece where there is none. -/
def splitAtSep (sep : Char → Bool) : List Char → List (List Char)
  | [] => [[]]
  | c :: cs =>
    if sep c then [] :: splitAtSep sep cs
    else match splitAtSep sep cs with
      | [] => [[c]]
      | p :: ps => (c :: p) :: ps

/-- The line up to a `#` that stands outside a double-quoted string. -/
def dropComment : Bool → List Char → List Char
  | _, [] => []
  | quoted, c :: cs =>
    if c.toNat = 0x22 then c :: dropComment (!quoted) cs
    else if c.toNat = 0x23 ∧ quoted = false then []
    else c :: dropComment quoted cs

/-- The value of a digit character, `none` for any other character. -/
def charDigit (c : Char) : Option Nat :=
  let n := c.toNat
  if 0x30 ≤ n ∧ n ≤ 0x39 then some (n - 0x30)
  else if 0x41 ≤ n ∧ n ≤ 0x46 then some (n - 0x41 + 10)
  else if 0x61 ≤ n ∧ n ≤ 0x66 then some (n - 0x61 + 10)
  else none

/-- The digits of a number in `base`, after those read already; `none` at a character that is no digit of
that base. -/
def digitsValue (base : Nat) : List Char → Nat → Option Nat
  | [], v => some v
  | c :: cs, v =>
    match charDigit c with
    | none => none
    | some k => if k < base then digitsValue base cs (base * v + k) else none

/-- A run of one or more digits. -/
def unsignedValue (base : Nat) (cs : List Char) : Option Nat :=
  if cs.isEmpty then none else digitsValue base cs 0

/-- `<natural>`: a decimal, `0x` hex or `0b` binary integer literal (R56). -/
def naturalLiteral (cs : List Char) : Option Nat :=
  if cs.take 2 = ['0', 'x'] then unsignedValue 16 (cs.drop 2)
  else if cs.take 2 = ['0', 'b'] then unsignedValue 2 (cs.drop 2)
  else unsignedValue 10 cs

/-- The sign of a literal, and the rest of it. -/
def signOf (cs : List Char) : Bool × List Char :=
  match cs with
  | [] => (false, [])
  | c :: rest =>
    if c.toNat = 0x2D then (true, rest) else if c.toNat = 0x2B then (false, rest) else (false, cs)

/-- The exponent of `2^k`. -/
def integerLiteral (cs : List Char) : Option Int :=
  match unsignedValue 10 (signOf cs).2 with
  | none => none
  | some n => some (if (signOf cs).1 then -(n : Int) else (n : Int))

/-- An unsigned factor of a rational: `2^k`, `a/b`, an exact decimal, or an integer (R56). -/
def factorLiteral (cs : List Char) : Option Rat :=
  if cs.take 2 = ['2', '^'] then (integerLiteral (cs.drop 2)).map pow2
  else
    match splitAtSep (fun c => c.toNat == 0x2F) cs with
    | [a, b] =>
      match unsignedValue 10 a, unsignedValue 10 b with
      | some m, some n => if n = 0 then none else some ((m : Rat) / (n : Rat))
      | _, _ => none
    | _ =>
      match splitAtSep (fun c => c.toNat == 0x2E) cs with
      | [a, b] =>
        match unsignedValue 10 a, unsignedValue 10 b with
        | some m, some n => some ((m : Rat) + (n : Rat) / ((10 ^ b.length : Nat) : Rat))
        | _, _ => none
      | _ => (unsignedValue 10 cs).map (fun n => (n : Rat))

/-- A factor with its sign. -/
def signedFactor (cs : List Char) : Option Rat :=
  (factorLiteral (signOf cs).2).map (fun q => if (signOf cs).1 then -q else q)

/-- The product of the factors. -/
def productLiteral : List (List Char) → Option Rat
  | [] => some 1
  | f :: fs =>
    match signedFactor (trimBlanks f), productLiteral fs with
    | some q, some r => some (q * r)
    | _, _ => none

/-- `<rational>` (R56): factors joined by `*` or a middle dot. -/
def rationalLiteral (cs : List Char) : Option Rat :=
  productLiteral (splitAtSep (fun c => c.toNat == 0x2A || c.toNat == 0xB7) cs)

/-- The bytes of a double-quoted string after its opening quote: ASCII characters, and `\xHH` for any byte
(R56); the closing quote ends the text. -/
def quotedBytes : List Char → Option (List Byte)
  | [] => none
  | c :: cs =>
    if c.toNat = 0x22 then (if cs.isEmpty then some [] else none)
    else if c.toNat = 0x5C then
      match cs with
      | x :: h :: l :: rest =>
        if x = 'x' then
          match charDigit h, charDigit l with
          | some a, some b => (quotedBytes rest).map (BitVec.ofNat 8 (16 * a + b) :: ·)
          | _, _ => none
        else none
      | _ => none
    else if 0x80 ≤ c.toNat then none
    else (quotedBytes cs).map (BitVec.ofNat 8 c.toNat :: ·)

/-- `"<bytes>"` (R56). -/
def stringLiteral (cs : List Char) : Option (List Byte) :=
  match cs with
  | [] => none
  | c :: rest => if c.toNat = 0x22 then quotedBytes rest else none

/-- The operation a mnemonic names; the function names of §6 are accepted for the first four (R56). -/
def mnemonicOpcode (m : List Char) : Option Opcode :=
  if m = "PARSE".toList ∨ m = "parseBinaryFraction".toList then some .PARSE
  else if m = "ENC".toList ∨ m = "encodeFloat24".toList then some .ENC
  else if m = "DEC".toList ∨ m = "decodeFloat24".toList then some .DEC
  else if m = "PTGEN".toList ∨ m = "generatePrecisionTable".toList then some .PTGEN
  else if m = "FRAC2D".toList then some .FRAC2D
  else none

/-- The command of a mnemonic and its operand text (R56). -/
def assembleOperands (op : Opcode) (text : List Char) : Option Instr :=
  let parts := (splitAtSep (fun c => c.toNat == 0x2C) text).map trimBlanks
  match op with
  | .PARSE => (stringLiteral text).map .parse
  | .ENC => (rationalLiteral text).map .enc
  | .DEC => (naturalLiteral text).map .dec
  | .PTGEN =>
    match parts with
    | [d, p] =>
      match naturalLiteral d, rationalLiteral p with
      | some m, some q => some (.ptgen m q)
      | _, _ => none
    | _ => none
  | .FRAC2D =>
    match parts with
    | [i, b, d] =>
      match naturalLiteral i, naturalLiteral b, naturalLiteral d with
      | some k, some m, some n => some (.frac2d k m n)
      | _, _, _ => none
    | _ => none

/-- `.word 0xHH` (R56): the raw word, with no operands. -/
def rawWord (text : List Char) : Option RawCommand :=
  if text.take 2 = ['0', 'x'] ∧ text.length = 4 then
    (unsignedValue 16 (text.drop 2)).map (fun n => ⟨BitVec.ofNat 8 n, []⟩)
  else none

/-- One line of text: `none` when it is not in the syntax, no command for a blank line, else one command. -/
def assembleLine (line : List Char) : Option (List RawCommand) :=
  let cs := trimBlanks (dropComment false line)
  if cs.isEmpty then some []
  else
    let m := cs.takeWhile (fun c => !isBlank c)
    let text := trimBlanks (cs.dropWhile (fun c => !isBlank c))
    if m = ".word".toList then (rawWord text).map (fun c => [c])
    else
      match mnemonicOpcode m with
      | none => none
      | some op => (assembleOperands op text).map (fun i => [encode i])

/-- The lines of a text, in order; `none` when one of them is not in the syntax. -/
def assembleLines : List (List Char) → Option (List RawCommand)
  | [] => some []
  | l :: ls =>
    match assembleLine l, assembleLines ls with
    | some c, some cs => some (c ++ cs)
    | _, _ => none

/-- A program's text: one command a line (R56). -/
def assemble (text : List Char) : Option (List RawCommand) :=
  assembleLines (splitAtSep (fun c => c.toNat == 0x0A) text)

end Sys2Proof.Machine
end

