-- ==== Sys2Proof/Machine/Flags.lean ====
section
/-! DEFINITION. The block has no flags and no condition codes (R17). Its one flag-like item is `RESP.status`,
whose numeric codes stand here (R91). -/

namespace Sys2Proof.Machine

/-- The code column of R91's table. -/
def Status.code : Status → Nat
  | .ok => 0
  | .formatError => 1
  | .rangeError => 2
  | .domainError => 3
  | .illegalOp => 4

/-- The status of a code, `none` for a number that is no code (R91). -/
def statusOfCode : Nat → Option Status
  | 0 => some .ok
  | 1 => some .formatError
  | 2 => some .rangeError
  | 3 => some .domainError
  | 4 => some .illegalOp
  | _ + 5 => none

end Sys2Proof.Machine
end

