-- ==== Sys2Proof/Machine/Wire.lean ====
section
/-! DEFINITION. The serialized artifacts: a Float24 word as bytes (R28), a precision table as bytes (R29), and a
rational result on the wire (R7, D30). No command's result depends on any of them (R28, D18, D30). -/

namespace Sys2Proof.Machine

/-- The three bytes of a Float24 word: byte 0 is `w[23:16]` when big-endian, `w[7:0]` when little-endian (R28). -/
def serializeWord (o : ByteOrder) (w : Word24) : List Byte :=
  match o with
  | .big => [w.extractLsb' 16 8, w.extractLsb' 8 8, w.extractLsb' 0 8]
  | .little => [w.extractLsb' 0 8, w.extractLsb' 8 8, w.extractLsb' 16 8]

/-- The byte of one digit (R29): `0x30 + d` in ASCII, `d` in binary. -/
def digitByte (c : DigitCode) (d : Digit) : Byte :=
  match c with
  | .ascii => 0x30#8 + BitVec.ofNat 8 d.val
  | .binary => BitVec.ofNat 8 d.val

/-- The bytes of a table: entries in increasing index order, each digit one byte, first digit first (R29). -/
def serializeTable (c : DigitCode) (t : List (List Digit)) : List Byte :=
  t.flatMap (fun e => e.map (digitByte c))

/-- `RESULT_WIRE_FORMAT` is any exact encoding of a rational (R7): on the values it is used for, no two have
the same form. -/
def IsExactWireFormat (W : Type) (write : Rat → W) (values : Rat → Prop) : Prop :=
  ∀ q r, values q → values r → write q = write r → q = r

/-- D30's example of an exact form: sign, integer exponent, and an odd or zero significand. -/
structure DyadicTriple where
  negative : Bool
  exponent : Int
  significand : Nat
deriving DecidableEq, Repr

/-- The value of a triple. -/
def DyadicTriple.value (t : DyadicTriple) : Rat :=
  (if t.negative then -1 else 1) * pow2 t.exponent * (t.significand : Rat)

/-- Takes factors of two out of `m`, at most as many as the first argument says, and counts them. -/
def oddPart : Nat → Nat → Nat → Nat × Nat
  | 0, m, k => (m, k)
  | f + 1, m, k => if m % 2 = 0 ∧ m ≠ 0 then oddPart f (m / 2) (k + 1) else (m, k)

/-- The triple of a dyadic rational (D30): the denominator is a power of two. -/
def dyadicTriple (q : Rat) : DyadicTriple :=
  if q = 0 then ⟨false, 0, 0⟩
  else
    let m : Nat := q.num.natAbs
    let o : Nat × Nat := oddPart (Nat.log2 m) m 0
    ⟨decide (q < 0), (o.2 : Int) - (Nat.log2 q.den : Int), o.1⟩

end Sys2Proof.Machine
end

