-- ==== Sys2Proof/Safety.lean ====
section
/-! DEFINITION. The terms in which claims are stated: what a well-formed response is, the invariant of the state,
what a host may issue, the value of a digit string, the encodable range and its zero-alias band. -/

namespace Sys2Proof.Machine

/-- A dyadic rational: every rational result is one (R59, R64). -/
def IsDyadic (q : Rat) : Prop := ∃ k : Nat, q.den = 2 ^ k

/-- A result has the shape R19 and R49 give it: a rational is dyadic; a table has `2^B` entries of `D` digits and
the size `D · 2^B` (R82), with `B ≥ 1` and `D ≥ 1` (R83); a single entry has at least one digit (R89). -/
def Result.WellFormed : Result → Prop
  | .rat q => IsDyadic q
  | .word24 _ => True
  | .table b size es =>
    1 ≤ b ∧ es.length = 2 ^ b ∧ ∃ d : Nat, 1 ≤ d ∧ size = d * 2 ^ b ∧ ∀ e ∈ es, e.length = d
  | .digits ds => 1 ≤ ds.length

/-- `result` is `some` exactly when `status = OK` (R19), and the result is well formed. -/
def Response.WellFormed (r : Response) : Prop :=
  (r.result.isSome = true ↔ r.status = .ok) ∧ ∀ v, r.result = some v → v.WellFormed

/-- The invariant of the state: what `RESP` holds is a well-formed response. -/
def State.Inv (s : State) : Prop := ∀ r, s.resp = some r → r.WellFormed

/-- Every command the host has issued has the operand tuple of its opcode (R53, R55). -/
def State.Presentable (s : State) : Prop := ∀ c, HostEvent.issue c ∈ s.inbox → c.wellShaped = true

/-- The two parts of a binary-fraction string summed digit by digit (R59):
`Σ a_j · 2^(m−j) + Σ d_k · 2^-k`. -/
def binaryValue (ip fp : List Byte) : ℚ :=
  ∑ j ∈ Finset.range ip.length, (digitOf (ip.getD j chZero) : ℚ) * 2 ^ (ip.length - 1 - j) +
    ∑ k ∈ Finset.range fp.length, (digitOf (fp.getD k chZero) : ℚ) / 2 ^ (k + 1)

/-- `x = 0` or `2^-63 ≤ |x| < 2^65` (R76). -/
def EncInRange (x : ℚ) : Prop := x = 0 ∨ (2 : ℚ) ^ (-63 : ℤ) ≤ |x| ∧ |x| < (2 : ℚ) ^ (65 : ℤ)

/-- `2^-63 ≤ x < 2^-63 · (1 + 2^-16)` (R75). -/
def InZeroAliasBand (x : ℚ) : Prop :=
  (2 : ℚ) ^ (-63 : ℤ) ≤ x ∧ x < (2 : ℚ) ^ (-63 : ℤ) * (1 + (2 : ℚ) ^ (-16 : ℤ))

end Sys2Proof.Machine
end

