-- ==== Sys2Proof/Certificates/Slice0/Obligations.lean ====
section
/-! DEFINITION. The statements for the provers. Each docstring names the rule of spec/ it formalises. -/

open Sys2Proof Sys2Proof.Machine

/-! ### Reset, decoding and the step -/

/-- R107, R109. After reset `RESP = none` and no command is in progress; a reset between commands clears `RESP`,
so that the host's next read gives no value, and changes nothing else. That the inputs issued after the reset
stay issued (`inbox := rest`) is the model's choice of log entry 4, and the inbox itself that of log entry 2. -/
def Obligations.ResetClearsResponseOnly : Prop :=
  State.reset.resp = none ∧ State.reset.inbox = [] ∧
  ∀ (s : State) (rest : List HostEvent), s.inbox = .reset :: rest →
    ∃ t, step s = .next t ∧ t = { s with resp := none, inbox := rest } ∧ t.readResp = none

/-- The reset state carries the default column of R7, and the defaults are well formed. That `State.reset` carries
build parameters, and these ones, is the model's choice of log entry 1. -/
def Obligations.ResetUsesDefaultParameters : Prop :=
  State.reset.build = ⟨.halfEven, 32, none, none⟩ ∧ State.reset.build.wf = true

/-- The step runs the decoded command: taking it out of the inbox (log entry 2), and nothing else, comes before
`exec`. -/
def Obligations.StepRunsDecodedCommand : Prop :=
  ∀ (s : State) (c : RawCommand) (rest : List HostEvent) (i : Instr),
    s.inbox = .issue c :: rest → decode c = .ok i → step s = exec i { s with inbox := rest }

/-- The model's choice of log entry 2: with nothing issued a step changes nothing. -/
def Obligations.IdleStepChangesNothing : Prop :=
  ∀ s : State, s.inbox = [] → step s = .next s

/-- R52, R95. The illegal words are `0x00` and `0x06` to `0xFF`. Such a word writes the status `IllegalOp` and no
result, whatever operands come with it, and changes nothing else. The inbox that the word is taken from is the
model's (log entry 2). -/
def Obligations.IllegalWordRaisesIllegalOp : Prop :=
  (∀ w : Byte, decodeOpcode w = none ↔ w.toNat = 0 ∨ 6 ≤ w.toNat) ∧
  ∀ (s : State) (w : Byte) (os : List Operand) (rest : List HostEvent),
    (w.toNat = 0 ∨ 6 ≤ w.toNat) → s.inbox = .issue ⟨w, os⟩ :: rest →
      step s = .next { s with resp := some ⟨.illegalOp, none⟩, inbox := rest }

/-- R51. The five opcodes, word by word, each with its operand tuple; `0x00` is undefined. -/
def Obligations.OpcodeMapReadsWrittenWords : Prop :=
  (∀ str, decode ⟨0b00000001#8, [.bytes str]⟩ = .ok (.parse str)) ∧
  (∀ x, decode ⟨0b00000010#8, [.rat x]⟩ = .ok (.enc x)) ∧
  (∀ n, decode ⟨0b00000011#8, [.nat n]⟩ = .ok (.dec n)) ∧
  (∀ d p, decode ⟨0b00000100#8, [.nat d, .rat p]⟩ = .ok (.ptgen d p)) ∧
  (∀ i b d, decode ⟨0b00000101#8, [.nat i, .nat b, .nat d]⟩ = .ok (.frac2d i b d)) ∧
  decodeOpcode 0b00000000#8 = none

/-- Decoding an encoded command gives it back, and each command has one raw form only. -/
def Obligations.DecodeAndEncodeAgree : Prop :=
  (∀ i : Instr, decode (encode i) = .ok i) ∧
  ∀ (c : RawCommand) (i : Instr), decode c = .ok i → c = encode i

/-- R53, R55. A defined word decodes exactly when the operands have the types R53 lists for its opcode; the
refusal of any other tuple is the model's choice of log entry 3. -/
def Obligations.OpcodeFixesOperandTuple : Prop :=
  ∀ (c : RawCommand) (op : Opcode), decodeOpcode c.word = some op →
    ((∃ i, decode c = .ok i) ↔ c.operands.map operandKind = operandKinds op) ∧
    ∀ (s : State) (rest : List HostEvent), s.inbox = .issue c :: rest →
      c.operands.map operandKind ≠ operandKinds op → step s = .refused (.operandShape c.word)

/-- R90, R98, R113. The block never stops on what a host may present: with well-shaped commands issued, any number
of steps answers a state. The inbox clause is the model's: one input is taken a step and a step with nothing
issued is idle (log entry 2), and a reset keeps the later inputs (log entry 4). That nothing stops the block rests
on log entry 9, and what is well shaped on log entry 3. -/
def Obligations.PresentedCommandsNeverStop : Prop :=
  ∀ (s : State) (n : Nat), s.Presentable →
    ∃ t : State, Host.Core.run Sys2Proof.core n s = .next t ∧ t.Presentable ∧ t.inbox = s.inbox.drop n

/-! ### The response register -/

/-- R20. Every command writes `RESP` once, `OK` with a value or an error with none, and changes nothing else; a
step that takes neither a command nor a reset (R107) does not write `RESP`. -/
def Obligations.EveryCommandWritesOneResponse : Prop :=
  (∀ (i : Instr) (s : State), ∃ r : Response,
    exec i s = .next { s with resp := some r } ∧
    ((∃ v, r = ⟨.ok, some v⟩) ∨ ∃ e : ErrorKind, r = ⟨e.status, none⟩)) ∧
  ∀ s t : State, step s = .next t → (∀ c, s.inbox.head? ≠ some (.issue c)) →
    s.inbox.head? ≠ some .reset → t.resp = s.resp

/-- R14. The response is a function of the command, its operands and the build parameters: two blocks built
alike answer alike, whatever `RESP` and the inbox hold. -/
def Obligations.ResponseIgnoresPastCommands : Prop :=
  ∀ (i : Instr) (s u : State), s.build = u.build → ∃ r : Response,
    exec i s = .next { s with resp := some r } ∧ exec i u = .next { u with resp := some r }

/-- R33. A command's one effect is the write of `RESP`, and issuing it twice writes the same value twice. -/
def Obligations.RepeatedCommandIsIdempotent : Prop :=
  ∀ (i : Instr) (s : State), ∃ r : Response, exec i s = .next { s with resp := some r } ∧
    exec i { s with resp := some r } = .next { s with resp := some r }

/-- R36, R111. After any sequence of commands `RESP` holds the response of the last one. The inbox that holds the
sequence is the model's (log entry 2). -/
def Obligations.LastCommandDeterminesResponse : Prop :=
  ∀ (s : State) (is : List Instr) (i : Instr),
    s.inbox = (is ++ [i]).map (fun j => HostEvent.issue (encode j)) →
    ∃ t u : State, Host.Core.run Sys2Proof.core (is.length + 1) s = .next t ∧
      exec i { State.reset with build := s.build } = .next u ∧
      t.resp = u.resp ∧ t.build = s.build ∧ t.inbox = []

/-- R14, R18. No step writes a build parameter. The inbox clause is the model's: a step takes the oldest input, and
an empty inbox stays empty (log entry 2), and a reset keeps the later inputs (log entry 4). -/
def Obligations.StepKeepsBuildParameters : Prop :=
  ∀ s t : State, step s = .next t → t.build = s.build ∧ t.inbox = s.inbox.tail

/-- R19, R49, R59, R82. The invariant of the state is kept by every step, from every state that meets it. -/
def Obligations.StepKeepsResponseWellFormed : Prop :=
  ∀ s t : State, s.Inv → step s = .next t → t.Inv

/-- The invariant holds at reset. -/
def Obligations.ResetResponseWellFormed : Prop := State.reset.Inv

/-- R91. The status codes, both ways. -/
def Obligations.StatusCodesAsListed : Prop :=
  Status.ok.code = 0 ∧ Status.formatError.code = 1 ∧ Status.rangeError.code = 2 ∧
  Status.domainError.code = 3 ∧ Status.illegalOp.code = 4 ∧
  (∀ st : Status, statusOfCode st.code = some st) ∧ ∀ n st, statusOfCode n = some st → st.code = n

/-- R91 to R94. Which command raises which error; no command raises `IllegalOp`. -/
def Obligations.ErrorsRaisedByNamedCommands : Prop :=
  ∀ (i : Instr) (s : State), ∃ r : Response, exec i s = .next { s with resp := some r } ∧
    (r.status = .formatError → ∃ str, i = .parse str) ∧
    (r.status = .rangeError → (∃ n, i = .dec n) ∨ (∃ x, i = .enc x) ∨ ∃ k b d, i = .frac2d k b d) ∧
    (r.status = .domainError → (∃ d p, i = .ptgen d p) ∨ ∃ k b d, i = .frac2d k b d) ∧
    r.status ≠ .illegalOp

/-! ### The binary-fraction parser -/

/-- R59. The value of a well-formed string is the sum of its digits' weights; it is dyadic and not negative;
leading zeros of the integer part and trailing zeros of the fraction do not change it, nor does the `0b`. -/
def Obligations.ParseValueIsDigitSum : Prop :=
  (∀ (s : State) (pre ip : List Byte), (pre = [] ∨ pre = [chZero, chB]) → IsDigits ip →
    exceeds s.build.parseMaxLen (pre ++ ip).length = false →
    exec (.parse (pre ++ ip)) s =
      .next { s with resp := some ⟨.ok, some (.rat (binaryValue ip []))⟩ }) ∧
  (∀ (s : State) (pre ip fp : List Byte), (pre = [] ∨ pre = [chZero, chB]) → IsDigits ip → IsDigits fp →
    exceeds s.build.parseMaxLen (pre ++ ip ++ chDot :: fp).length = false →
    exec (.parse (pre ++ ip ++ chDot :: fp)) s =
      .next { s with resp := some ⟨.ok, some (.rat (binaryValue ip fp))⟩ }) ∧
  (∀ ip fp : List Byte, 0 ≤ binaryValue ip fp ∧ IsDyadic (binaryValue ip fp)) ∧
  (∀ (ip fp : List Byte) (m n : Nat),
    binaryValue (List.replicate m chZero ++ ip) (fp ++ List.replicate n chZero) = binaryValue ip fp)

/-- R58. `bfparse` raises `FormatError` exactly under conditions 1 to 5, and `PARSE` exactly under conditions
1 to 6; otherwise each returns a value. -/
def Obligations.FormatErrorConditions : Prop :=
  ∀ str : List Byte,
    let one := ∃ c ∈ str, c ≠ chZero ∧ c ≠ chOne ∧ c ≠ chDot ∧ c ≠ chB
    let two := ∃ j, str[j]? = some chB ∧ ¬ (j = 1 ∧ str[0]? = some chZero)
    let t := if str[0]? = some chZero ∧ str[1]? = some chB then str.drop 2 else str
    let three := 1 < t.count chDot
    let ip := t.takeWhile (fun c => c != chDot)
    let fp := t.drop (ip.length + 1)
    let four := ip = []
    let five := chDot ∈ t ∧ fp = []
    let bad := one ∨ two ∨ three ∨ four ∨ five
    (bad → bfparse str = .error .formatError) ∧
    (¬ bad → ∃ v, bfparse str = .ok v) ∧
    ∀ s : State,
      let six := ∃ m, s.build.parseMaxLen = some m ∧ m < str.length
      (bad ∨ six → exec (.parse str) s = .next { s with resp := some ⟨.formatError, none⟩ }) ∧
      (¬ (bad ∨ six) → ∃ v : ℚ, 0 ≤ v ∧
        exec (.parse str) s = .next { s with resp := some ⟨.ok, some (.rat v)⟩ })

/-- R48, R57. The parser accepts exactly the strings of the grammar. -/
def Obligations.ParserAcceptsGrammar : Prop :=
  ∀ str : List Byte, (∃ v, bfparse str = .ok v) ↔ IsBinaryFraction str

/-- R61. The internal calls never raise: their strings are in the grammar, their values are `1 + Fr/2^16` and
`i/2^B`, and `PARSE_MAX_LEN` never applies to the commands that make them. -/
def Obligations.InternalParsesNeverRaise : Prop :=
  (∀ fr : Nat, fr < 2 ^ 16 → IsBinaryFraction ([chOne, chDot] ++ binStr 16 fr) ∧
    bfparse ([chOne, chDot] ++ binStr 16 fr) = .ok (1 + (fr : ℚ) / 2 ^ 16)) ∧
  (∀ b i : Nat, 1 ≤ b → i < 2 ^ b → IsBinaryFraction ([chZero, chDot] ++ binStr b i) ∧
    bfparse ([chZero, chDot] ++ binStr b i) = .ok ((i : ℚ) / 2 ^ b)) ∧
  ∀ (s : State) (limit : Option Nat) (i : Instr), ((∃ n, i = .dec n) ∨ ∃ d p, i = .ptgen d p) →
    ∃ r : Response, r.status ≠ .formatError ∧ exec i s = .next { s with resp := some r } ∧
      exec i { s with build := { s.build with parseMaxLen := limit } } =
        .next { s with build := { s.build with parseMaxLen := limit }, resp := some r }

/-! ### The Float24 word and its decoder -/

/-- R41. The three fields partition the word, and packing is their concatenation. -/
def Obligations.WordIsItsThreeFields : Prop :=
  (∀ w : Word24, w.toNat = (signBit w).toNat * 2 ^ 23 + exponentField w * 2 ^ 16 + fractionField w ∧
    exponentField w < 2 ^ 7 ∧ fractionField w < 2 ^ 16 ∧
    packWord (signBit w) (exponentField w) (fractionField w) = w) ∧
  ∀ (sg : Bool) (e fr : Nat), e < 2 ^ 7 → fr < 2 ^ 16 →
    signBit (packWord sg e fr) = sg ∧ exponentField (packWord sg e fr) = e ∧
    fractionField (packWord sg e fr) = fr

/-- R62. `DEC` raises `RangeError` for `n ≥ 2^24` and does nothing else; the check of a port of at least 25
bits is the same check. -/
def Obligations.DecRejectsWidePatterns : Prop :=
  (∀ (s : State) (n : Nat), 2 ^ 24 ≤ n →
    exec (.dec n) s = .next { s with resp := some ⟨.rangeError, none⟩ }) ∧
  ∀ width n : Nat, 25 ≤ width → n < 2 ^ width →
    (decPortRangeError width n = true ↔ 2 ^ 24 ≤ n)

/-- R63. `DEC 0` is 0, and `0x800000` is not zero: it is `−2^-63`; no other pattern denotes 0. -/
def Obligations.DecZeroPatternOnly : Prop :=
  (∀ w : Word24, f24val w = 0 ↔ w = 0#24) ∧ ∀ s : State, exec (.dec 0) s = .next { s with resp := some ⟨.ok, some (.rat 0)⟩ } ∧
    exec (.dec 0x800000) s =
      .next { s with resp := some ⟨.ok, some (.rat (-(2 : ℚ) ^ (-63 : ℤ)))⟩ }

/-- R65, with `f24val` written out from R44. `DEC n` returns the format's value of every `n < 2^24`. -/
def Obligations.DecComputesFormatValue : Prop :=
  ∀ (s : State) (n : Nat), n < 2 ^ 24 →
    let v : ℚ := if n = 0 then 0 else
      (-1) ^ (n / 2 ^ 23) * (2 : ℚ) ^ (((n / 2 ^ 16 % 2 ^ 7 : Nat) : ℤ) - 63) *
        (1 + ((n % 2 ^ 16 : Nat) : ℚ) / 2 ^ 16)
    exec (.dec n) s = .next { s with resp := some ⟨.ok, some (.rat v)⟩ } ∧
    f24val (BitVec.ofNat 24 n) = v

/-- R66. The sign of the result is bit 23 of the operand, and the result is zero for no `n > 0`. -/
def Obligations.DecResultSign : Prop :=
  ∀ (s : State) (n : Nat), 0 < n → n < 2 ^ 24 →
    ∃ q : ℚ, exec (.dec n) s = .next { s with resp := some ⟨.ok, some (.rat q)⟩ } ∧
      (n.testBit 23 = true → q < 0) ∧ (n.testBit 23 = false → 0 < q)

/-- R46. The representable values, the largest and the smallest magnitudes, and the 17 significant bits. -/
def Obligations.RepresentableValues : Prop :=
  (∀ q : ℚ, (∃ w, f24val w = q) ↔ q = 0 ∨ (q ≠ (2 : ℚ) ^ (-63 : ℤ) ∧
    ∃ (e : ℤ) (k : Nat), -63 ≤ e ∧ e ≤ 64 ∧ k < 2 ^ 16 ∧
      |q| = (2 : ℚ) ^ e * (1 + (k : ℚ) / 2 ^ 16))) ∧
  (∀ w, |f24val w| ≤ 2 ^ 65 - 2 ^ 48) ∧
  f24val 0x7FFFFF#24 = 2 ^ 65 - 2 ^ 48 ∧ f24val 0xFFFFFF#24 = -(2 ^ 65 - 2 ^ 48) ∧
  (∀ w, 0 < f24val w → (2 : ℚ) ^ (-63 : ℤ) * (1 + (2 : ℚ) ^ (-16 : ℤ)) ≤ f24val w) ∧
  f24val 0x000001#24 = (2 : ℚ) ^ (-63 : ℤ) * (1 + (2 : ℚ) ^ (-16 : ℤ)) ∧
  (∀ w, f24val w < 0 → f24val w ≤ -(2 : ℚ) ^ (-63 : ℤ)) ∧
  f24val 0x800000#24 = -(2 : ℚ) ^ (-63 : ℤ) ∧
  ∀ w, f24val w ≠ 0 → ∃ (m : Nat) (e : ℤ), 2 ^ 16 ≤ m ∧ m < 2 ^ 17 ∧ |f24val w| = (m : ℚ) * (2 : ℚ) ^ e

/-- R47. The order of patterns is the order of values for sign 0 and the reverse for sign 1. -/
def Obligations.PatternOrderIsMagnitudeOrder : Prop :=
  ∀ v w : Word24, v.toNat < w.toNat →
    (signBit v = false → signBit w = false → f24val v < f24val w) ∧
    (signBit v = true → signBit w = true → f24val w < f24val v ∧ |f24val v| < |f24val w|) ∧
    (signBit w = false → 0 < f24val w) ∧ f24val 0#24 = 0

/-! ### The encoder -/

/-- R74. Zero gives the zero pattern; with `2^k ≤ |x| < 2^(k+1)` the word is `(s << 23) | (E << 16) | Fr` with
`E = k + 63` and `Fr = floor((|x|/2^k − 1) · 2^16)` when `0 ≤ E ≤ 127`, and `RangeError` otherwise. -/
def Obligations.EncPacksTruncatedMantissa : Prop :=
  (∀ s : State, exec (.enc 0) s = .next { s with resp := some ⟨.ok, some (.word24 0x000000#24)⟩ }) ∧
  ∀ (s : State) (x : ℚ) (k : ℤ), x ≠ 0 → (2 : ℚ) ^ k ≤ |x| → |x| < (2 : ℚ) ^ (k + 1) →
    (k + 63 < 0 ∨ 127 < k + 63 →
      exec (.enc x) s = .next { s with resp := some ⟨.rangeError, none⟩ }) ∧
    (0 ≤ k + 63 → k + 63 ≤ 127 → ∃ w : Word24,
      exec (.enc x) s = .next { s with resp := some ⟨.ok, some (.word24 w)⟩ } ∧
      (w.toNat : ℤ) = (if x < 0 then 2 ^ 23 else 0) + (k + 63) * 2 ^ 16 +
        ⌊(|x| / (2 : ℚ) ^ k - 1) * 2 ^ 16⌋)

/-- R67. Zero encodes to the zero pattern at once, and the host's binary64 `−0.0` is the rational 0. The layout
of a binary64 value is the model's (log entry 6). -/
def Obligations.EncZeroGivesZeroPattern : Prop :=
  binary64Value 0x8000000000000000#64 = some 0 ∧
  ∀ (s : State) (v : BitVec 64) (x : ℚ), binary64Value v = some x → x = 0 →
    exec (.enc x) s = .next { s with resp := some ⟨.ok, some (.word24 0x000000#24)⟩ }

/-- R70. `ENC` raises `RangeError` exactly when `x ≠ 0` and `|x|` is outside `[2^-63, 2^65)`; otherwise it writes
a word whose exponent field is `floor(log2 |x|) + 63`. -/
def Obligations.EncRangeErrorExactly : Prop :=
  ∀ (s : State) (x : ℚ),
    (¬ EncInRange x → exec (.enc x) s = .next { s with resp := some ⟨.rangeError, none⟩ }) ∧
    (EncInRange x → ∃ w : Word24,
      exec (.enc x) s = .next { s with resp := some ⟨.ok, some (.word24 w)⟩ } ∧
      (x ≠ 0 → (2 : ℚ) ^ ((exponentField w : ℤ) - 63) ≤ |x| ∧
        |x| < (2 : ℚ) ^ ((exponentField w : ℤ) - 63 + 1)))

/-- R69. The loop ends with `1 ≤ a < 2`, `shift = floor(log2 |x|)` and `a = |x| / 2^shift`, after `|shift|`
iterations, which is what the direct computation gives. R69 allows a loop that stops once `shift` has left
`[-63, 64]`; that the model's loop stops after 65 iterations is log entry 10, and the last clause says that it then
raises where the whole loop does. -/
def Obligations.NormalizationLoopFindsShift : Prop :=
  ∀ a : ℚ, 0 < a →
    (∃ k : ℤ, (2 : ℚ) ^ k ≤ a ∧ a < (2 : ℚ) ^ (k + 1)) ∧
    ∀ k : ℤ, (2 : ℚ) ^ k ≤ a → a < (2 : ℚ) ^ (k + 1) →
      floorLog2 a = k ∧ 1 ≤ a / (2 : ℚ) ^ k ∧ a / (2 : ℚ) ^ k < 2 ∧
      (∀ n : Nat, k.natAbs ≤ n → normalizeLoop n a 0 = (a / (2 : ℚ) ^ k, k)) ∧
      ((k < -63 ∨ 64 < k) → exponentOutOfRange ((normalizeLoop 65 a 0).2 + 63) = true)

/-- R72. The greedy loop emits the bits of `trunc16(r)`, most significant first: the largest 16-bit fraction that
does not exceed `r`. -/
def Obligations.FractionLoopTruncates : Prop :=
  ∀ r : ℚ, 0 ≤ r → r < 1 →
    (fractionLoop 16 1 r 0 : ℤ) = ⌊r * 2 ^ 16⌋ ∧ trunc16 r = fractionLoop 16 1 r 0 ∧
    (fractionLoop 16 1 r 0 : ℚ) / 2 ^ 16 ≤ r ∧ r < ((fractionLoop 16 1 r 0 : ℚ) + 1) / 2 ^ 16 ∧
    ∀ k : Nat, k ≤ 16 → fractionLoop 16 1 r 0 / 2 ^ (16 - k) = fractionLoop k 1 r 0

/-- R80. The source's loops and the direct extraction are one encoder, on every rational. `encodeByLoops` stops
normalization after 65 iterations, which is the model's bound of log entry 10. -/
def Obligations.LoopEncoderIsDirectEncoder : Prop :=
  ∀ (s : State) (x : ℚ), exec (.enc x) s =
    .next (match encodeByLoops x with
      | .ok w => { s with resp := some ⟨.ok, some (.word24 w)⟩ }
      | .error e => { s with resp := some ⟨e.status, none⟩ })

/-- R75. The band at the bottom of the range encodes to the zero pattern, which `DEC` reads as 0; its negative
counterpart encodes to `0x800000`, which decodes to `−2^-63`. -/
def Obligations.ZeroAliasBandEncodesToZero : Prop :=
  ∀ (s : State) (x : ℚ), InZeroAliasBand x →
    exec (.enc x) s = .next { s with resp := some ⟨.ok, some (.word24 0x000000#24)⟩ } ∧
    exec (.dec 0x000000) s = .next { s with resp := some ⟨.ok, some (.rat 0)⟩ } ∧
    exec (.enc (-x)) s = .next { s with resp := some ⟨.ok, some (.word24 0x800000#24)⟩ } ∧
    exec (.dec 0x800000) s =
      .next { s with resp := some ⟨.ok, some (.rat (-(2 : ℚ) ^ (-63 : ℤ)))⟩ }

/-- R76. The truncation bound: outside the band the decoded value has the sign of `x`, does not exceed it in
magnitude, and is within `2^shift · 2^-16` of it; inside the band it is 0. -/
def Obligations.RoundTripTruncationBound : Prop :=
  ∀ (s : State) (x : ℚ), EncInRange x → ∃ (w : Word24) (y : ℚ),
    exec (.enc x) s = .next { s with resp := some ⟨.ok, some (.word24 w)⟩ } ∧
    exec (.dec w.toNat) s = .next { s with resp := some ⟨.ok, some (.rat y)⟩ } ∧ y = f24val w ∧
    (InZeroAliasBand x → y = 0) ∧
    (¬ InZeroAliasBand x → (0 < y ↔ 0 < x) ∧ (y < 0 ↔ x < 0) ∧ |y| ≤ |x| ∧
      (x ≠ 0 → |y - x| / |x| < (2 : ℚ) ^ (-16 : ℤ)) ∧
      ∀ k : ℤ, (2 : ℚ) ^ k ≤ |x| → |x| < (2 : ℚ) ^ (k + 1) →
        |x| - |y| < (2 : ℚ) ^ k * (2 : ℚ) ^ (-16 : ℤ) ∧
        (2 : ℚ) ^ k * (2 : ℚ) ^ (-16 : ℤ) ≤ |x| * (2 : ℚ) ^ (-16 : ℤ))

/-- R77. Every pattern is the encoding of its own value, so `ENC` after `DEC` gives the word back. -/
def Obligations.EncodeInvertsDecode : Prop :=
  ∀ (s : State) (w : Word24),
    exec (.dec w.toNat) s = .next { s with resp := some ⟨.ok, some (.rat (f24val w))⟩ } ∧
    exec (.enc (f24val w)) s = .next { s with resp := some ⟨.ok, some (.word24 w)⟩ }

/-- R78. Monotonicity in its weak form, and its equality case. -/
def Obligations.EncIsMonotone : Prop :=
  (∀ (s : State) (a b : ℚ), 0 < a → a < b → EncInRange a → EncInRange b → ∃ v w : Word24,
    exec (.enc a) s = .next { s with resp := some ⟨.ok, some (.word24 v)⟩ } ∧
    exec (.enc b) s = .next { s with resp := some ⟨.ok, some (.word24 w)⟩ } ∧ v.toNat ≤ w.toNat) ∧
  ∀ s : State, exec (.enc 1) s = .next { s with resp := some ⟨.ok, some (.word24 0x3F0000#24)⟩ } ∧
    exec (.enc (1 + (2 : ℚ) ^ (-20 : ℤ))) s =
      .next { s with resp := some ⟨.ok, some (.word24 0x3F0000#24)⟩ }

/-- R79. `ENC(−x) = ENC(x) | 0x800000`; the band breaks the symmetry in value only. -/
def Obligations.EncSignSymmetry : Prop :=
  (∀ (s : State) (x : ℚ), 0 < x → EncInRange x → ∃ w : Word24,
    exec (.enc x) s = .next { s with resp := some ⟨.ok, some (.word24 w)⟩ } ∧
    exec (.enc (-x)) s = .next { s with resp := some ⟨.ok, some (.word24 (w ||| 0x800000#24))⟩ }) ∧
  ∀ s : State,
    exec (.enc ((2 : ℚ) ^ (-63 : ℤ))) s =
      .next { s with resp := some ⟨.ok, some (.word24 0x000000#24)⟩ } ∧
    exec (.enc (-(2 : ℚ) ^ (-63 : ℤ))) s =
      .next { s with resp := some ⟨.ok, some (.word24 0x800000#24)⟩ } ∧
    f24val 0x000000#24 = 0 ∧ f24val 0x800000#24 = -(2 : ℚ) ^ (-63 : ℤ)

/-! ### Precision tables -/

/-- R11. `roundTie(q)` is the nearest integer, and a tie goes by `TIE_MODE`; `trunc16(r)` is
`floor(r · 2^16)`. -/
def Obligations.RoundingPrimitives : Prop :=
  (∀ (mode : TieMode) (q : ℚ), 0 ≤ q → |(roundTie mode q : ℚ) - q| ≤ 1 / 2 ∧
    (Int.fract q = 1 / 2 →
      (mode = .halfUp → (roundTie mode q : ℤ) = ⌊q⌋ + 1) ∧
      (mode = .halfEven → Even (roundTie mode q) ∧
        ((roundTie mode q : ℤ) = ⌊q⌋ ∨ (roundTie mode q : ℤ) = ⌊q⌋ + 1)))) ∧
  ∀ r : ℚ, 0 ≤ r → r < 1 → (trunc16 r : ℤ) = ⌊r * 2 ^ 16⌋

/-- R10, R49. `bin_n(v)` is the `n` binary digits of `v` and `dec_n(v)` its `n` decimal digits, most significant
first: the string has length `n`, and its digit `j` has weight `2^(n−1−j)`, or `10^(n−1−j)`; as an entry the
decimal digits denote `v / 10^n`. -/
def Obligations.DigitStringsHaveTheirValue : Prop :=
  (∀ n v : Nat, v < 2 ^ n → (binStr n v).length = n ∧
    ∀ j : Nat, j < n → (binStr n v)[j]? = some (if v / 2 ^ (n - 1 - j) % 2 = 1 then chOne else chZero)) ∧
  ∀ n v : Nat, v < 10 ^ n → (decDigits n v).length = n ∧
    (∀ j : Nat, j < n → ((decDigits n v)[j]?).map Fin.val = some (v / 10 ^ (n - 1 - j) % 10)) ∧
    entryValue (decDigits n v) = (v : ℚ) / 10 ^ n

/-- R81. `bitsRequired(D, P)` is the least integer `n` with `2^-n ≤ P^D`, and the values the rule lists. -/
def Obligations.BitsRequiredIsLeast : Prop :=
  (∀ (d : Nat) (p : ℚ), 1 ≤ d → 0 < p → (2 : ℚ) ^ (-(bitsRequired d p)) ≤ p ^ d ∧
    ∀ n : ℤ, (2 : ℚ) ^ (-n) ≤ p ^ d → bitsRequired d p ≤ n) ∧
  bitsRequired 2 (1 / 20) = 9 ∧ bitsRequired 1 (1 / 2) = 1 ∧ bitsRequired 1 (1 / 4) = 2 ∧
  bitsRequired 1 (1 / 10) = 4 ∧ bitsRequired 2 (1 / 10) = 7 ∧ bitsRequired 3 (1 / 10) = 10 ∧
  bitsRequired 1 (1 / 20) = 5 ∧ bitsRequired 1 (1 / 100) = 7 ∧ bitsRequired 3 (1 / 2) = 3 ∧
  bitsRequired 2 1 = 0

/-- R83. `PTGEN` raises `DomainError` exactly when `D = 0`, `P ≤ 0`, `bitsRequired < 1`, which is `P ≥ 1`, or the
table is larger than `MAX_TABLE_BITS`; otherwise it returns a table, whose content `PtgenTableEntries` states. -/
def Obligations.PtgenDomainChecks : Prop :=
  (∀ (d : Nat) (p : ℚ), 1 ≤ d → 0 < p → (bitsRequired d p < 1 ↔ 1 ≤ p)) ∧
  ∀ (s : State) (d : Nat) (p : ℚ),
    let bad := d = 0 ∨ p ≤ 0 ∨ 1 ≤ p ∨
      ∃ m : Nat, s.build.maxTableBits = some m ∧ (m : ℤ) < bitsRequired d p
    (bad → exec (.ptgen d p) s = .next { s with resp := some ⟨.domainError, none⟩ }) ∧
    (¬ bad → ∃ (b size : Nat) (es : List (List Digit)),
      exec (.ptgen d p) s = .next { s with resp := some ⟨.ok, some (.table b size es)⟩ })

/-- R82, R84, R86, R88. The table of `PTGEN`: `B = bitsRequired(D, P)`, `byteSize = D · 2^B`, and entry `i` is
the rounding of `i · 10^D / 2^B` clamped at `10^D − 1`. -/
def Obligations.PtgenTableEntries : Prop :=
  ∀ (s : State) (d b : Nat) (p : ℚ), 1 ≤ d → 0 < p → p < 1 → (b : ℤ) = bitsRequired d p →
    exceeds s.build.maxTableBits b = false →
    ∃ es : List (List Digit),
      exec (.ptgen d p) s = .next { s with resp := some ⟨.ok, some (.table b (d * 2 ^ b) es)⟩ } ∧
      es.length = 2 ^ b ∧
      ∀ i : Nat, i < 2 ^ b → es[i]? = some (decDigits d
        (min (roundTie s.build.tieMode ((i : ℚ) * 10 ^ d / 2 ^ b)) (10 ^ d - 1)))

/-- R85. The correction replaces the maximal suffix of all-zero entries by all-nine entries, and nothing else. -/
def Obligations.CorrectionReplacesZeroSuffix : Prop :=
  ∀ (d k : Nat) (kept : List (List Digit)), kept.getLast? ≠ some (List.replicate d 0) →
    correctTable d (kept ++ List.replicate k (List.replicate d 0)) =
      kept ++ List.replicate k (List.replicate d 9)

/-- R86. The corrected entries are exactly those whose rounding overflows to `10^D`, which are those with
`i / 2^B ≥ 1 − 10^-D / 2`, under both tie modes; entry 0 stays all zeros. -/
def Obligations.CorrectedEntriesAreOverflows : Prop :=
  ∀ (mode : TieMode) (b d : Nat), 1 ≤ b → 1 ≤ d → ∃ raw : List (List Digit),
    rawTable mode b d = .ok raw ∧ raw.length = 2 ^ b ∧
    (correctTable d raw)[0]? = some (decDigits d 0) ∧
    raw[2 ^ (b - 1)]? = some (5 :: List.replicate (d - 1) 0) ∧
    ∀ i : Nat, i < 2 ^ b →
      raw[i]? = some (decDigits d (roundedEntry mode i b d % 10 ^ d)) ∧
      ((correctTable d raw)[i]? ≠ raw[i]? ↔ roundedEntry mode i b d = 10 ^ d) ∧
      (roundedEntry mode i b d = 10 ^ d ↔ 1 - 1 / 10 ^ d / 2 ≤ (i : ℚ) / 2 ^ b) ∧
      (correctTable d raw)[i]? = some (decDigits d (min (roundedEntry mode i b d) (10 ^ d - 1)))

/-- R87. `i · 10^D / 2^B` is a tie exactly when `i ≥ 1` has `B − D − 1` trailing zero bits, so only with
`B ≥ D + 1`, and then the modes give some entry differently; without a tie the modes agree; with `B ≤ D` no
rounding occurs; and the rule's examples. -/
def Obligations.TiesAndExactness : Prop :=
  (∀ i b d : Nat, i < 2 ^ b → (Int.fract ((i : ℚ) * 10 ^ d / 2 ^ b) = 1 / 2 ↔
    1 ≤ i ∧ ∃ z : Nat, z + d + 1 = b ∧ 2 ^ z ∣ i ∧ ¬ 2 ^ (z + 1) ∣ i)) ∧
  (∀ i b d : Nat, i < 2 ^ b → Int.fract ((i : ℚ) * 10 ^ d / 2 ^ b) = 1 / 2 → d + 1 ≤ b) ∧
  (∀ b d : Nat, d + 1 ≤ b → ∃ i : Nat, i < 2 ^ b ∧
    roundedEntry .halfUp i b d ≠ roundedEntry .halfEven i b d) ∧
  (∀ i b d : Nat, i < 2 ^ b → Int.fract ((i : ℚ) * 10 ^ d / 2 ^ b) ≠ 1 / 2 →
    roundedEntry .halfUp i b d = roundedEntry .halfEven i b d) ∧
  (∀ (mode : TieMode) (i b d : Nat), i < 2 ^ b → b ≤ d →
    (roundedEntry mode i b d : ℚ) = (i : ℚ) * 10 ^ d / 2 ^ b) ∧
  roundedEntry .halfUp 64 9 2 ≠ roundedEntry .halfEven 64 9 2 ∧
  roundedEntry .halfUp 320 9 2 ≠ roundedEntry .halfEven 320 9 2 ∧
  roundedEntry .halfUp 192 9 2 = roundedEntry .halfEven 192 9 2 ∧
  roundedEntry .halfUp 448 9 2 = roundedEntry .halfEven 448 9 2

/-- R89, R96. `FRAC2D`: the domain checks come first, then the index check, then the digits of the clamped
rounding. -/
def Obligations.Frac2dChecksThenDigits : Prop :=
  ∀ (s : State) (i b d : Nat),
    (d = 0 ∨ b = 0 ∨ exceeds s.build.maxTableBits b = true →
      exec (.frac2d i b d) s = .next { s with resp := some ⟨.domainError, none⟩ }) ∧
    (d ≠ 0 → b ≠ 0 → exceeds s.build.maxTableBits b = false → 2 ^ b ≤ i →
      exec (.frac2d i b d) s = .next { s with resp := some ⟨.rangeError, none⟩ }) ∧
    (d ≠ 0 → b ≠ 0 → exceeds s.build.maxTableBits b = false → i < 2 ^ b →
      exec (.frac2d i b d) s = .next { s with resp := some ⟨.ok, some (.digits (decDigits d
        (min (roundTie s.build.tieMode ((i : ℚ) * 10 ^ d / 2 ^ b)) (10 ^ d - 1))))⟩ })

/-- R89 (its equivalence). `FRAC2D i, B, D` returns entry `i` of the table that `PTGEN D, P` returns, for every
`P` that `PTGEN` accepts with that `B`. -/
def Obligations.Frac2dIsPtgenEntry : Prop :=
  ∀ (s : State) (d b i : Nat) (p : ℚ), 1 ≤ d → 0 < p → p < 1 → (b : ℤ) = bitsRequired d p →
    exceeds s.build.maxTableBits b = false → i < 2 ^ b →
    ∃ (es : List (List Digit)) (e : List Digit),
      exec (.ptgen d p) s = .next { s with resp := some ⟨.ok, some (.table b (d * 2 ^ b) es)⟩ } ∧
      es[i]? = some e ∧
      exec (.frac2d i b d) s = .next { s with resp := some ⟨.ok, some (.digits e)⟩ }

/-! ### Serialized artifacts and text -/

/-- R28. Byte 0 of a serialized word is `w[23:16]` or `w[7:0]`, by the byte order. -/
def Obligations.WordBytesByOrder : Prop :=
  ∀ w : Word24, ∃ hi mid lo : Byte, w = hi ++ mid ++ lo ∧
    serializeWord .big w = [hi, mid, lo] ∧ serializeWord .little w = [lo, mid, hi]

/-- R29. Entry `i` takes bytes `i·D` to `i·D + D − 1`, first digit first, one byte a digit, `D · 2^B` bytes in all;
a digit's byte is `0x30 + d` in ASCII and `d` in binary. -/
def Obligations.TableBytesLayout : Prop :=
  (∀ (c : DigitCode) (d : Nat) (es : List (List Digit)), (∀ e ∈ es, e.length = d) →
    (serializeTable c es).length = d * es.length ∧
    ∀ i k : Nat, i < es.length → k < d →
      (serializeTable c es)[i * d + k]? = ((es[i]?).bind (fun e => e[k]?)).map (digitByte c)) ∧
  ∀ g : Digit, (digitByte .ascii g).toNat = 0x30 + g.val ∧ (digitByte .binary g).toNat = g.val

/-- D30. The sign, exponent and odd-significand triple is an exact wire format of the rational results: it has
the value it was made from, and two dyadic rationals with one triple are equal. -/
def Obligations.DyadicTripleIsExact : Prop :=
  (∀ q : ℚ, IsDyadic q → (dyadicTriple q).value = q ∧
    ((dyadicTriple q).significand = 0 ∨ (dyadicTriple q).significand % 2 = 1)) ∧
  IsExactWireFormat DyadicTriple dyadicTriple IsDyadic

/-- R56 (the frame of a quoted string is log entry 7). `\xHH` writes any byte: every string of bytes has a quoted form, which is read back. -/
def Obligations.QuotedTextWritesAnyBytes : Prop :=
  ∀ (str : List Byte) (hex : Nat → Char), (∀ k, k < 16 → charDigit (hex k) = some k) →
    stringLiteral (Char.ofNat 0x22 ::
      (str.flatMap (fun c => [Char.ofNat 0x5C, 'x', hex (c.toNat / 16), hex (c.toNat % 16)]) ++
        [Char.ofNat 0x22])) = some str

/-- R56. A line in each form: every mnemonic and every function name accepted for one; a rational as an integer, a
fraction, an exact decimal, a power of two, and a product of them; a natural in decimal, hex and binary; a string
with characters and with a written byte; the raw word; a comment alone and after a command. The blanks, the product
separators (an asterisk or a middle dot) and the sign before a factor are the model's choice of log entry 7. -/
def Obligations.AssemblerReadsSyntax : Prop :=
  assembleLine "ENC 7".toList = some [encode (.enc 7)] ∧
  assembleLine "ENC -16".toList = some [encode (.enc (-16))] ∧
  assembleLine "ENC 15/4".toList = some [encode (.enc (15 / 4))] ∧
  assembleLine "ENC 0.1 # exact".toList = some [encode (.enc (1 / 10))] ∧
  assembleLine "ENC 2^65".toList = some [encode (.enc (2 ^ 65))] ∧
  assembleLine "ENC 3 * 2^-4".toList = some [encode (.enc (3 / 16))] ∧
  assembleLine "ENC -2^-63 · 2.5 · 1/2".toList = some [encode (.enc (-(5 / 2 ^ 65)))] ∧
  assembleLine "encodeFloat24 -2^-63".toList = some [encode (.enc (-(1 / 2 ^ 63)))] ∧
  assembleLine "DEC 100".toList = some [encode (.dec 100)] ∧
  assembleLine "DEC 0x40E000".toList = some [encode (.dec 0x40E000)] ∧
  assembleLine "decodeFloat24 0b101".toList = some [encode (.dec 5)] ∧
  assembleLine "parseBinaryFraction \"1.1\"".toList = assembleLine "PARSE \"1.1\"".toList ∧
  assembleLine "PARSE \"1.1\"".toList = some [encode (.parse [chOne, chDot, chOne])] ∧
  assembleLine "PARSE \"\\x30b1\"".toList = some [encode (.parse [chZero, chB, chOne])] ∧
  assembleLine "PTGEN 1, 0.05".toList = some [encode (.ptgen 1 (1 / 20))] ∧
  assembleLine "generatePrecisionTable 2, 1/20".toList = some [encode (.ptgen 2 (1 / 20))] ∧
  assembleLine "FRAC2D 31, 5, 1".toList = some [encode (.frac2d 31 5 1)] ∧
  assembleLine ".word 0xFF".toList = some [⟨0xFF#8, []⟩] ∧
  assembleLine "# a comment".toList = some []
end

