-- ==== Sys2Proof/Laws/Decode.lean ====
section
/-! SUPPORT. The decoder: which words select an operation, and which operand tuples it takes. -/

namespace Sys2Proof

@[simp] theorem decodeOpcode_encodeOpcode (op : Opcode) : decodeOpcode (encodeOpcode op) = some op := by
  cases op <;> decide +kernel

/-- A word that selects an operation is that operation's word. -/
theorem word_of_decodeOpcode {w : Byte} {op : Opcode} : decodeOpcode w = some op → w = encodeOpcode op := by
  revert w
  cases op <;> decide +kernel

/-- No two rows of the opcode table take the same word. -/
theorem opcodeTable_disjoint : opcodeTable.Pairwise (fun r q =>
    ∀ w : Byte, ¬ (w &&& r.mask = r.pattern ∧ w &&& q.mask = q.pattern)) := by
  decide +kernel

/-- The opcode of a command reads the command's own operands back. -/
theorem readOperands_operands (i : Instr) : readOperands i.opcode i.operands = some i := by
  cases i <;> rfl

/-- Operands that are read are the operands of the command read, under the command's opcode. -/
theorem readOperands_some {op : Opcode} {os : List Operand} {i : Instr}
    (h : readOperands op os = some i) : op = i.opcode ∧ os = i.operands := by
  unfold readOperands at h
  split at h <;> split at h <;> cases h <;> exact ⟨rfl, rfl⟩

/-- Operands are read exactly when they have the types of the opcode's tuple. -/
theorem readOperands_isSome_iff (op : Opcode) (os : List Operand) :
    (∃ i, readOperands op os = some i) ↔ os.map operandKind = operandKinds op := by
  constructor
  · rintro ⟨i, h⟩
    obtain ⟨rfl, rfl⟩ := readOperands_some h
    cases i <;> rfl
  · intro h
    rcases op <;> rcases os with _ | ⟨a, _ | ⟨b, _ | ⟨c, _ | ⟨d, os⟩⟩⟩⟩ <;>
      (try rcases a) <;> (try rcases b) <;> (try rcases c) <;>
      simp_all [operandKinds, operandKind, readOperands]

end Sys2Proof
end

