-- ==== Sys2Proof/Laws/Operands.lean ====
section
/-! SUPPORT. The Float24 fields as numbers. -/

namespace Sys2Proof.Machine

theorem signBit_eq (w : Word24) : signBit w = decide (2 ^ 23 ≤ w.toNat) := by
  have hw := w.isLt
  rw [signBit, BitVec.getLsbD, Nat.testBit_eq_decide_div_mod_eq]
  congr 1
  simp only [eq_iff_iff]
  omega

theorem exponentField_eq (w : Word24) : exponentField w = w.toNat / 2 ^ 16 % 2 ^ 7 := by
  simp [exponentField, BitVec.extractLsb'_toNat, Nat.shiftRight_eq_div_pow]

theorem fractionField_eq (w : Word24) : fractionField w = w.toNat % 2 ^ 16 := by
  simp [fractionField, BitVec.extractLsb'_toNat]

/-- Packing adds the fields at their places, and nothing wraps. -/
theorem packWord_toNat (s : Bool) {e fr : Nat} (he : e < 2 ^ 7) (hf : fr < 2 ^ 16) :
    (packWord s e fr).toNat = s.toNat * 2 ^ 23 + e * 2 ^ 16 + fr := by
  have hs : s.toNat < 2 := Bool.toNat_lt s
  have h1 : s.toNat <<< 23 ||| e <<< 16 = s.toNat * 2 ^ 23 + e * 2 ^ 16 := by
    rw [Nat.shiftLeft_eq e, ← Nat.shiftLeft_add_eq_or_of_lt (by omega), Nat.shiftLeft_eq]
  have h2 : (s.toNat * 2 ^ 23 + e * 2 ^ 16) ||| fr = s.toNat * 2 ^ 23 + e * 2 ^ 16 + fr := by
    rw [show s.toNat * 2 ^ 23 + e * 2 ^ 16 = (s.toNat * 2 ^ 7 + e) <<< 16 by
        rw [Nat.shiftLeft_eq]; ring,
      ← Nat.shiftLeft_add_eq_or_of_lt hf]
  rw [packWord, BitVec.toNat_ofNat, h1, h2, Nat.mod_eq_of_lt]
  omega

end Sys2Proof.Machine
end

