-- ==== Sys2Proof/Laws/Ops.lean ====
section
/-! SUPPORT. What the shared arithmetic and text primitives do, each said once and in Mathlib's terms. -/

namespace Sys2Proof.Machine

theorem pow2_eq_zpow (k : ℤ) : pow2 k = (2 : ℚ) ^ k := by
  cases k with
  | ofNat n => simp [pow2]
  | negSucc n => simp [pow2, zpow_negSucc]

theorem pow2_pos (k : ℤ) : 0 < pow2 k := by
  rw [pow2_eq_zpow]
  positivity

theorem magnitude_eq_abs (x : ℚ) : magnitude x = |x| := by
  unfold magnitude
  split_ifs with h
  · exact (abs_of_neg h).symm
  · exact (abs_of_nonneg (not_lt.mp h)).symm

theorem exceeds_eq_false_iff (l : Option Nat) (n : Nat) :
    exceeds l n = false ↔ ∀ m, l = some m → n ≤ m := by
  cases l <;> simp [exceeds]

theorem exceeds_eq_true_iff (l : Option Nat) (n : Nat) :
    exceeds l n = true ↔ ∃ m, l = some m ∧ m < n := by
  cases l <;> simp [exceeds]

/-- The bit lengths of numerator and denominator bound a positive rational. -/
theorem log2_bounds (a : ℚ) (ha : 0 < a) :
    (2 : ℚ) ^ ((Nat.log2 a.num.natAbs : ℤ) - (Nat.log2 a.den : ℤ) - 1) ≤ a ∧
      a < (2 : ℚ) ^ ((Nat.log2 a.num.natAbs : ℤ) - (Nat.log2 a.den : ℤ) + 1) := by
  have hnum : 0 < a.num := Rat.num_pos.mpr ha
  have hn0 : a.num.natAbs ≠ 0 := by omega
  have hcast : ((a.num.natAbs : ℕ) : ℚ) = (a.num : ℚ) := by
    rw [Nat.cast_natAbs, abs_of_pos hnum]
  have ha' : a = ((a.num.natAbs : ℕ) : ℚ) / (a.den : ℚ) := by
    rw [hcast]; exact (Rat.num_div_den a).symm
  have hd : (0 : ℚ) < a.den := by exact_mod_cast a.den_pos
  have n1 : ((2 : ℚ) ^ (Nat.log2 a.num.natAbs)) ≤ (a.num.natAbs : ℚ) := by
    exact_mod_cast Nat.log2_self_le hn0
  have n2 : (a.num.natAbs : ℚ) < (2 : ℚ) ^ (Nat.log2 a.num.natAbs + 1) := by
    exact_mod_cast Nat.lt_log2_self
  have d1 : ((2 : ℚ) ^ (Nat.log2 a.den)) ≤ (a.den : ℚ) := by
    exact_mod_cast Nat.log2_self_le a.den_nz
  have d2 : (a.den : ℚ) < (2 : ℚ) ^ (Nat.log2 a.den + 1) := by
    exact_mod_cast Nat.lt_log2_self
  generalize hp : Nat.log2 a.num.natAbs = p at *
  generalize hq : Nat.log2 a.den = q at *
  have e1 : (2 : ℚ) ^ ((p : ℤ) - (q : ℤ) - 1) = 2 ^ p / 2 ^ (q + 1) := by
    rw [show (p : ℤ) - (q : ℤ) - 1 = (p : ℤ) - ((q + 1 : ℕ) : ℤ) by push_cast; ring,
      zpow_sub₀ (by norm_num), zpow_natCast, zpow_natCast]
  have e2 : (2 : ℚ) ^ ((p : ℤ) - (q : ℤ) + 1) = 2 ^ (p + 1) / 2 ^ q := by
    rw [show (p : ℤ) - (q : ℤ) + 1 = ((p + 1 : ℕ) : ℤ) - (q : ℤ) by push_cast; ring,
      zpow_sub₀ (by norm_num), zpow_natCast, zpow_natCast]
  rw [e1, e2]
  generalize (a.num.natAbs : ℚ) = n at *
  generalize (a.den : ℚ) = d at *
  rw [ha']
  constructor
  · rw [div_le_div_iff₀ (by positivity) hd]
    exact mul_le_mul n1 d2.le hd.le (by have : (0:ℚ) < 2 ^ p := by positivity
                                        linarith)
  · rw [div_lt_div_iff₀ hd (by positivity)]
    exact mul_lt_mul n2 d1 (by positivity) (by positivity)

/-- `floorLog2` is the floor of the binary logarithm. -/
theorem floorLog2_bounds (a : ℚ) (ha : 0 < a) :
    (2 : ℚ) ^ floorLog2 a ≤ a ∧ a < (2 : ℚ) ^ (floorLog2 a + 1) := by
  have hb := log2_bounds a ha
  unfold floorLog2
  simp only [pow2_eq_zpow]
  split_ifs with h
  · exact ⟨h, hb.2⟩
  · exact ⟨hb.1, by simpa using not_le.mp h⟩

/-- There is one such exponent. -/
theorem zpow_bracket_unique {a : ℚ} {j k : ℤ} (hj : (2 : ℚ) ^ j ≤ a) (hj' : a < (2 : ℚ) ^ (j + 1))
    (hk : (2 : ℚ) ^ k ≤ a) (hk' : a < (2 : ℚ) ^ (k + 1)) : j = k := by
  have h1 : j < k + 1 := (zpow_lt_zpow_iff_right₀ (by norm_num : (1 : ℚ) < 2)).mp (hj.trans_lt hk')
  have h2 : k < j + 1 := (zpow_lt_zpow_iff_right₀ (by norm_num : (1 : ℚ) < 2)).mp (hk.trans_lt hj')
  omega

theorem floorLog2_eq {a : ℚ} {k : ℤ} (hk : (2 : ℚ) ^ k ≤ a) (hk' : a < (2 : ℚ) ^ (k + 1)) :
    floorLog2 a = k := by
  have ha : 0 < a := lt_of_lt_of_le (by positivity) hk
  exact zpow_bracket_unique (floorLog2_bounds a ha).1 (floorLog2_bounds a ha).2 hk hk'

theorem rat_floor_eq (q : ℚ) : q.floor = ⌊q⌋ := rfl

theorem trunc16_eq (r : ℚ) : trunc16 r = ⌊r * 2 ^ 16⌋.toNat := by
  norm_num [trunc16, rat_floor_eq]

/-- `roundTie` by the floor and the fractional part of its argument. -/
theorem roundTie_cases (mode : TieMode) (q : ℚ) (hq : 0 ≤ q) :
    (roundTie mode q : ℤ) =
      if Int.fract q < 1 / 2 then ⌊q⌋
      else if 1 / 2 < Int.fract q then ⌊q⌋ + 1
      else match mode with
        | .halfUp => ⌊q⌋ + 1
        | .halfEven => if ⌊q⌋ % 2 = 0 then ⌊q⌋ else ⌊q⌋ + 1 := by
  have hf : 0 ≤ ⌊q⌋ := Int.floor_nonneg.mpr hq
  obtain ⟨n, hn⟩ := Int.eq_ofNat_of_zero_le hf
  have hr : q - ((q.floor.toNat : ℕ) : ℚ) = Int.fract q := by
    rw [rat_floor_eq, hn, Int.toNat_natCast, Int.fract, hn]
    norm_num
  unfold roundTie
  simp only [hr]
  rw [rat_floor_eq, hn, Int.toNat_natCast]
  cases mode <;> simp only <;> split_ifs <;> first | rfl | omega

theorem binStr_length (n v : Nat) : (binStr n v).length = n := by
  induction n generalizing v with
  | zero => rfl
  | succ n ih => simp [binStr, ih]

theorem decDigits_length (n v : Nat) : (decDigits n v).length = n := by
  induction n generalizing v with
  | zero => rfl
  | succ n ih => simp [decDigits, ih]

theorem isBit_bitChar (b : Bool) : isBit (bitChar b) = true := by cases b <;> rfl

theorem binStr_isBit (n v : Nat) : ∀ c ∈ binStr n v, isBit c = true := by
  induction n generalizing v with
  | zero => simp [binStr]
  | succ n ih =>
    intro c hc
    rcases List.mem_append.mp hc with h | h
    · exact ih _ c h
    · rw [List.mem_singleton.mp h]
      exact isBit_bitChar _

/-- The low-order digits of a number do not depend on what stands above them. -/
theorem decDigits_mod (n v : Nat) : decDigits n (v % 10 ^ n) = decDigits n v := by
  induction n generalizing v with
  | zero => rfl
  | succ n ih =>
    have h1 : v % 10 ^ (n + 1) / 10 = v / 10 % 10 ^ n := by
      rw [pow_succ', Nat.mod_mul_right_div_self]
    have h2 : v % 10 ^ (n + 1) % 10 = v % 10 :=
      Nat.mod_mod_of_dvd v (dvd_pow_self 10 (Nat.succ_ne_zero n))
    simp only [decDigits, h1, h2, ih]

/-- `D` digits name each number below `10^D` once. -/
theorem decDigits_injective {n v w : Nat} (hv : v < 10 ^ n) (hw : w < 10 ^ n)
    (h : decDigits n v = decDigits n w) : v = w := by
  induction n generalizing v w with
  | zero => omega
  | succ n ih =>
    simp only [decDigits] at h
    obtain ⟨h1, h2⟩ := List.append_inj' h rfl
    have := ih (by rw [pow_succ] at hv; omega) (by rw [pow_succ] at hw; omega) h1
    simp only [List.cons.injEq, Fin.mk.injEq, and_true] at h2
    omega

theorem decDigits_zero (n : Nat) : decDigits n 0 = List.replicate n 0 := by
  induction n with
  | zero => rfl
  | succ n ih =>
    rw [List.replicate_succ', ← ih]
    rfl

theorem decDigits_nines (n : Nat) : decDigits n (10 ^ n - 1) = List.replicate n 9 := by
  induction n with
  | zero => rfl
  | succ n ih =>
    have h : 1 ≤ 10 ^ n := Nat.one_le_pow _ _ (by decide)
    have h1 : (10 ^ (n + 1) - 1) / 10 = 10 ^ n - 1 := by rw [pow_succ]; omega
    have h2 : (10 ^ (n + 1) - 1) % 10 = 9 := by rw [pow_succ]; omega
    rw [List.replicate_succ', ← ih]
    simp only [decDigits, h1, h2]
    rfl

end Sys2Proof.Machine
end

