-- ==== Sys2Proof/Laws/Parse.lean ====
section
/-! SUPPORT. The parser, said once: the two forms of string it accepts and what it answers for each, and that it
accepts no other. -/

namespace Sys2Proof.Machine

theorem isBit_ne_dot {c : Byte} (h : isBit c = true) : c ≠ chDot := by
  rintro rfl
  exact absurd h (by decide)

theorem isBit_ne_b {c : Byte} (h : isBit c = true) : c ≠ chB := by
  rintro rfl
  exact absurd h (by decide)

theorem isDigitRun_iff (s : List Byte) : isDigitRun s = true ↔ IsDigits s := by
  simp [isDigitRun, IsDigits, List.all_eq_true]

theorem digits_dot_not_mem {s : List Byte} (h : IsDigits s) : chDot ∉ s :=
  fun hm => isBit_ne_dot (h.2 _ hm) rfl

/-- The mark is stripped where it stands. -/
theorem stripBinaryMark_marked (t : List Byte) : stripBinaryMark (chZero :: chB :: t) = t := by
  simp [stripBinaryMark]

/-- A string whose second byte is not `'b'` has no mark. -/
theorem stripBinaryMark_unmarked {s : List Byte} (h : s[1]? ≠ some chB) : stripBinaryMark s = s := by
  unfold stripBinaryMark
  rcases s with _ | ⟨a, _ | ⟨b, t⟩⟩
  · simp
  · simp
  · have : b ≠ chB := by simpa using h
    simp [this]

/-- Either the mark stands at the front, or nothing is stripped. -/
theorem stripBinaryMark_cases (s : List Byte) :
    s = chZero :: chB :: stripBinaryMark s ∨ stripBinaryMark s = s := by
  unfold stripBinaryMark
  split_ifs with h
  · left
    have := List.take_append_drop 2 s
    rw [h] at this
    exact this.symm
  · exact .inr rfl

theorem splitPoint_of_not_mem {t : List Byte} (h : chDot ∉ t) : splitPoint t = (t, none) := by
  simp [splitPoint, h]

theorem takeWhile_point {ip fp : List Byte} (h : chDot ∉ ip) :
    (ip ++ chDot :: fp).takeWhile (fun c => c != chDot) = ip := by
  rw [List.takeWhile_append_of_pos (by intro c hc; simpa using fun e : c = chDot => h (e ▸ hc))]
  simp

theorem splitPoint_point {ip fp : List Byte} (h : chDot ∉ ip) :
    splitPoint (ip ++ chDot :: fp) = (ip, some fp) := by
  have hd : (ip ++ chDot :: fp).dropWhile (fun c => c != chDot) = chDot :: fp := by
    rw [List.dropWhile_append_of_pos (by intro c hc; simpa using fun e : c = chDot => h (e ▸ hc))]
    simp
  simp only [splitPoint, takeWhile_point h, hd]
  simp

/-- Every string is without a point or splits at its first point. -/
theorem point_cases (t : List Byte) :
    chDot ∉ t ∨ ∃ ip fp, chDot ∉ ip ∧ t = ip ++ chDot :: fp := by
  induction t with
  | nil => simp
  | cons c t ih =>
    by_cases hc : c = chDot
    · exact .inr ⟨[], t, by simp, by simp [hc]⟩
    · rcases ih with h | ⟨ip, fp, h1, rfl⟩
      · exact .inl (by simp only [List.mem_cons, not_or]; exact ⟨fun e => hc e.symm, h⟩)
      · exact .inr ⟨c :: ip, fp, by simp only [List.mem_cons, not_or]; exact ⟨fun e => hc e.symm, h1⟩, rfl⟩

/-- What the parser does with the string once the mark is stripped. -/
def parseUnmarked (t : List Byte) : Except ErrorKind Rat :=
  if 1 < t.count chDot then .error .formatError
  else
    match splitPoint t with
    | (ip, none) =>
      if isDigitRun ip then .ok (integerPart ip : Rat) else .error .formatError
    | (ip, some fp) =>
      if !isDigitRun ip then .error .formatError
      else if !isDigitRun fp then .error .formatError
      else .ok (fractionPart fp 1 (integerPart ip : Rat))

theorem bfparse_eq (s : List Byte) : bfparse s = parseUnmarked (stripBinaryMark s) := rfl

/-- A digit run is its base-2 integer. -/
theorem parseUnmarked_integer {ip : List Byte} (h : IsDigits ip) :
    parseUnmarked ip = .ok (integerPart ip : Rat) := by
  have hc : ip.count chDot = 0 := List.count_eq_zero.mpr (digits_dot_not_mem h)
  simp [parseUnmarked, hc, splitPoint_of_not_mem (digits_dot_not_mem h), (isDigitRun_iff ip).mpr h]

/-- Two digit runs about a point. -/
theorem parseUnmarked_point {ip fp : List Byte} (h : IsDigits ip) (h' : IsDigits fp) :
    parseUnmarked (ip ++ chDot :: fp) = .ok (fractionPart fp 1 (integerPart ip : Rat)) := by
  have hc : (ip ++ chDot :: fp).count chDot = 1 := by
    simp [List.count_append, List.count_eq_zero.mpr (digits_dot_not_mem h), List.count_eq_zero.mpr (digits_dot_not_mem h')]
  simp [parseUnmarked, hc, splitPoint_point (digits_dot_not_mem h), (isDigitRun_iff ip).mpr h,
    (isDigitRun_iff fp).mpr h']

/-- Everything the parser can answer. -/
theorem parseUnmarked_cases (t : List Byte) :
    (IsDigits t ∧ parseUnmarked t = .ok (integerPart t : Rat)) ∨
    (∃ ip fp, IsDigits ip ∧ IsDigits fp ∧ t = ip ++ chDot :: fp ∧
      parseUnmarked t = .ok (fractionPart fp 1 (integerPart ip : Rat))) ∨
    parseUnmarked t = .error .formatError := by
  rcases point_cases t with h | ⟨ip, fp, hip, rfl⟩
  · by_cases hd : IsDigits t
    · exact .inl ⟨hd, parseUnmarked_integer hd⟩
    · have hr : isDigitRun t = false := by
          simpa only [Bool.not_eq_true] using mt (isDigitRun_iff t).mp hd
      exact .inr (.inr (by simp [parseUnmarked, splitPoint_of_not_mem h, hr]))
  · by_cases hi : IsDigits ip
    · by_cases hf : IsDigits fp
      · exact .inr (.inl ⟨ip, fp, hi, hf, rfl, parseUnmarked_point hi hf⟩)
      · have hr : isDigitRun fp = false := by
          simpa only [Bool.not_eq_true] using mt (isDigitRun_iff fp).mp hf
        exact .inr (.inr (by simp [parseUnmarked, splitPoint_point hip, hr]))
    · have hr : isDigitRun ip = false := by
          simpa only [Bool.not_eq_true] using mt (isDigitRun_iff ip).mp hi
      exact .inr (.inr (by simp [parseUnmarked, splitPoint_point hip, hr]))

/-- The running sum starts from its third argument. -/
theorem fractionPart_add (cs : List Byte) (f : Nat) (v : ℚ) :
    fractionPart cs f v = v + fractionPart cs f 0 := by
  induction cs generalizing f v with
  | nil => simp [fractionPart]
  | cons c cs ih =>
    simp only [fractionPart]
    rw [ih _ (v + _), ih _ (0 + _)]
    ring

theorem integerPart_append (s : List Byte) (c : Byte) :
    integerPart (s ++ [c]) = 2 * integerPart s + digitOf c := by
  simp [integerPart]

theorem digitOf_bitChar (b : Bool) : digitOf (bitChar b) = b.toNat := by cases b <;> rfl

/-- The base-2 integer of `bin_n(v)` is `v`. -/
theorem integerPart_binStr (n v : Nat) (h : v < 2 ^ n) : integerPart (binStr n v) = v := by
  induction n generalizing v with
  | zero => simp [binStr, integerPart]; omega
  | succ n ih =>
    rw [binStr, integerPart_append, ih _ (by rw [pow_succ] at h; omega), digitOf_bitChar]
    rcases Nat.mod_two_eq_zero_or_one v with h2 | h2 <;> simp [h2] <;> omega

end Sys2Proof.Machine
end

