-- ==== Sys2Proof/Laws/PerInstr.lean ====
section
/-! SUPPORT. The family EncodesOwnTuple, command by command: the encoder writes the command's own word, with the
operand tuple of that word. -/

namespace Sys2Proof.Laws.EncodesOwnTuple

/-- The encoded word selects the command's operation, and the operands are of the types R53 lists for it. -/
def Statement (i : Instr) : Prop :=
  decodeOpcode (encode i).word = some i.opcode ∧
    (encode i).operands.map operandKind = operandKinds i.opcode

theorem parse (s : List Byte) : Statement (.parse s) := ⟨decodeOpcode_encodeOpcode _, rfl⟩
theorem enc (x : Rat) : Statement (.enc x) := ⟨decodeOpcode_encodeOpcode _, rfl⟩
theorem dec (n : Nat) : Statement (.dec n) := ⟨decodeOpcode_encodeOpcode _, rfl⟩
theorem ptgen (d : Nat) (p : Rat) : Statement (.ptgen d p) := ⟨decodeOpcode_encodeOpcode _, rfl⟩
theorem frac2d (i b d : Nat) : Statement (.frac2d i b d) := ⟨decodeOpcode_encodeOpcode _, rfl⟩

end Sys2Proof.Laws.EncodesOwnTuple
end

