-- ==== Sys2Proof/Laws/State.lean ====
section
/-! SUPPORT. One lemma per field and update of the state, true by rfl. -/

namespace Sys2Proof.Machine

@[simp] theorem complete_resp (s : State) (v : Result) : (s.complete v).resp = some ⟨.ok, some v⟩ := rfl
@[simp] theorem complete_build (s : State) (v : Result) : (s.complete v).build = s.build := rfl
@[simp] theorem complete_inbox (s : State) (v : Result) : (s.complete v).inbox = s.inbox := rfl

@[simp] theorem raise_resp (s : State) (e : ErrorKind) : (s.raise e).resp = some ⟨e.status, none⟩ := rfl
@[simp] theorem raise_build (s : State) (e : ErrorKind) : (s.raise e).build = s.build := rfl
@[simp] theorem raise_inbox (s : State) (e : ErrorKind) : (s.raise e).inbox = s.inbox := rfl

@[simp] theorem respond_ok (s : State) (v : Result) : s.respond (.ok v) = s.complete v := rfl
@[simp] theorem respond_error (s : State) (e : ErrorKind) : s.respond (.error e) = s.raise e := rfl
@[simp] theorem respond_build (s : State) (r : Except ErrorKind Result) :
    (s.respond r).build = s.build := by cases r <;> rfl
@[simp] theorem respond_inbox (s : State) (r : Except ErrorKind Result) :
    (s.respond r).inbox = s.inbox := by cases r <;> rfl

@[simp] theorem hostReset_resp (s : State) : s.hostReset.resp = none := rfl
@[simp] theorem hostReset_build (s : State) : s.hostReset.build = s.build := rfl
@[simp] theorem hostReset_inbox (s : State) : s.hostReset.inbox = s.inbox := rfl

@[simp] theorem taken_resp (s : State) : s.taken.resp = s.resp := rfl
@[simp] theorem taken_build (s : State) : s.taken.build = s.build := rfl
@[simp] theorem taken_inbox (s : State) : s.taken.inbox = s.inbox.tail := rfl

@[simp] theorem issueAll_resp (s : State) (cs : List RawCommand) : (s.issueAll cs).resp = s.resp := rfl
@[simp] theorem issueAll_build (s : State) (cs : List RawCommand) : (s.issueAll cs).build = s.build := rfl
@[simp] theorem issueAll_inbox (s : State) (cs : List RawCommand) :
    (s.issueAll cs).inbox = s.inbox ++ cs.map HostEvent.issue := rfl

@[simp] theorem issueFirst_resp (s : State) (c : RawCommand) : (s.issueFirst c).resp = s.resp := rfl
@[simp] theorem issueFirst_build (s : State) (c : RawCommand) : (s.issueFirst c).build = s.build := rfl
@[simp] theorem issueFirst_inbox (s : State) (c : RawCommand) :
    (s.issueFirst c).inbox = .issue c :: s.inbox := rfl

@[simp] theorem readResp_eq (s : State) : s.readResp = s.resp := rfl

@[simp] theorem reset_resp : State.reset.resp = none := rfl
@[simp] theorem reset_build : State.reset.build = BuildParams.defaults := rfl
@[simp] theorem reset_inbox : State.reset.inbox = [] := rfl

end Sys2Proof.Machine
end

