-- ==== Sys2Proof/Laws/Step.lean ====
section
/-! SUPPORT. What a command and a step can do, each said once: later proofs cite these and unfold neither
`exec` nor `step`. -/

namespace Sys2Proof.Machine

/-- What the command returns or raises, from the build parameters and the command alone. -/
def instrOutcome (b : BuildParams) : Instr → Except ErrorKind Result
  | .parse str => parseOutcome b str
  | .enc x => encOutcome x
  | .dec n => decOutcome n
  | .ptgen d p => ptgenOutcome b d p
  | .frac2d i k d => frac2dOutcome b i k d

/-- A command does one thing: it responds. -/
theorem exec_eq_respond (i : Instr) (s : State) :
    exec i s = .next (s.respond (instrOutcome s.build i)) := by
  cases i <;> rfl

theorem exec_parse (str : List Byte) (s : State) :
    exec (.parse str) s = .next (s.respond (parseOutcome s.build str)) := rfl
theorem exec_enc (x : Rat) (s : State) : exec (.enc x) s = .next (s.respond (encOutcome x)) := rfl
theorem exec_dec (n : Nat) (s : State) : exec (.dec n) s = .next (s.respond (decOutcome n)) := rfl
theorem exec_ptgen (d : Nat) (p : Rat) (s : State) :
    exec (.ptgen d p) s = .next (s.respond (ptgenOutcome s.build d p)) := rfl
theorem exec_frac2d (i b d : Nat) (s : State) :
    exec (.frac2d i b d) s = .next (s.respond (frac2dOutcome s.build i b d)) := rfl

theorem step_idle {s : State} (h : s.inbox = []) : step s = .next s := by
  simp [step, takeInput, h]

theorem step_reset {s : State} {rest : List HostEvent} (h : s.inbox = .reset :: rest) :
    step s = .next s.taken.hostReset := by
  simp [step, takeInput, h]

theorem step_issue {s : State} {c : RawCommand} {rest : List HostEvent} (h : s.inbox = .issue c :: rest) :
    step s = stepCommand c s.taken := by
  simp [step, takeInput, h]

theorem taken_eq {s : State} {e : HostEvent} {rest : List HostEvent} (h : s.inbox = e :: rest) :
    s.taken = { s with inbox := rest } := by
  simp [State.taken, h]

/-- A run of one step more. -/
theorem run_succ {s t : State} (n : Nat) (h : step s = .next t) :
    Host.Core.run Sys2Proof.core (n + 1) s = Host.Core.run Sys2Proof.core n t := by
  have hs : Sys2Proof.core.step s = .next t := h
  exact (Host.Core.run.eq_2 Sys2Proof.core s n).trans (by rw [hs])

/-- Everything a step can do when it answers a next state. -/
theorem step_cases {s t : State} (h : step s = .next t) :
    (s.inbox = [] ∧ t = s) ∨
    (∃ rest, s.inbox = .reset :: rest ∧ t = s.taken.hostReset) ∨
    (∃ c rest i, s.inbox = .issue c :: rest ∧ decode c = .ok i ∧
      t = s.taken.respond (instrOutcome s.build i)) ∨
    (∃ c rest w, s.inbox = .issue c :: rest ∧ decode c = .error (.illegalWord w) ∧
      t = s.taken.raise .illegalOp) := by
  rcases hin : s.inbox with _ | ⟨_ | _, rest⟩
  · rw [step_idle hin] at h
    exact .inl ⟨rfl, by injection h with h; exact h.symm⟩
  · rename_i c
    rw [step_issue hin, stepCommand] at h
    split at h
    · rename_i i hd
      rw [exec_eq_respond] at h
      injection h with h
      exact .inr (.inr (.inl ⟨c, rest, i, rfl, hd, h.symm⟩))
    · rename_i w hd
      injection h with h
      exact .inr (.inr (.inr ⟨c, rest, w, rfl, hd, h.symm⟩))
    · cases h
  · rw [step_reset hin] at h
    exact .inr (.inl ⟨rest, rfl, by injection h with h; exact h.symm⟩)

end Sys2Proof.Machine
end

