-- ==== Sys2Proof/Laws/Table.lean ====
section
/-! SUPPORT. Building a table entry by entry, and the downward scan of its correction. -/

namespace Sys2Proof.Machine

/-- When no entry raises, the table is the list of its entries in index order. -/
theorem rawEntries_ok {mode : TieMode} {b d : Nat} (f : Nat → List Digit) :
    ∀ is : List Nat, (∀ i ∈ is, rawEntry mode b d i = .ok (f i)) →
      rawEntries mode b d is = .ok (is.map f)
  | [], _ => rfl
  | i :: is, h => by
    have h1 := h i (by simp)
    have h2 := rawEntries_ok f is (fun j hj => h j (by simp [hj]))
    simp [rawEntries, h1, h2]

theorem correctDown_length (d : Nat) (t : List (List Digit)) : (correctDown d t).length = t.length := by
  induction t with
  | nil => rfl
  | cons e es ih =>
    simp only [correctDown]
    split <;> simp [ih]

theorem correctTable_length (d : Nat) (t : List (List Digit)) : (correctTable d t).length = t.length := by
  simp [correctTable, correctDown_length]

/-- The scan keeps the width of the entries. -/
theorem correctDown_width {d : Nat} {t : List (List Digit)} (h : ∀ e ∈ t, e.length = d) :
    ∀ e ∈ correctDown d t, e.length = d := by
  induction t with
  | nil => simp [correctDown]
  | cons a as ih =>
    have ha := h a (by simp)
    have hs := ih (fun e he => h e (by simp [he]))
    intro e he
    simp only [correctDown] at he
    split at he
    · rcases List.mem_cons.mp he with rfl | he
      · exact decDigits_length d _
      · exact hs e he
    · exact h e he

theorem correctTable_width {d : Nat} {t : List (List Digit)} (h : ∀ e ∈ t, e.length = d) :
    ∀ e ∈ correctTable d t, e.length = d := by
  intro e he
  exact correctDown_width (t := t.reverse) (by simpa using h) e (by simpa [correctTable] using he)

end Sys2Proof.Machine
end

