-- ==== Sys2Proof/Tests/Slice0.lean ====
section
/-! SUPPORT. The model's own tests. Expected results are those of spec/95_test_vectors.md (the section stands in each
comment); then, for each statement with hypotheses, a witness that meets them. -/

set_option Elab.async false

namespace Sys2Proof.Machine.Tests

/-- The state after reset with the build parameters `b`. -/
def built (b : BuildParams) : State := { State.reset with build := b }

/-- The defaults with ties rounded up. -/
def upward : BuildParams := { BuildParams.defaults with tieMode := .halfUp }

/-- What `RESP` holds after a command on a freshly reset block built with `b`. -/
def respOf (b : BuildParams) (i : Instr) : Option Response :=
  match exec i (built b) with
  | .next t => t.resp
  | _ => none

/-- The response of a whole step: the text of one line is assembled and issued. -/
def respOfLine (line : String) : Option Response :=
  match assembleLine line.toList with
  | some [c] =>
    match step (State.reset.issueFirst c) with
    | .next t => t.resp
    | _ => none
  | _ => none

/-- The response of a successful command. -/
def good (v : Result) : Option Response := some ⟨.ok, some v⟩

/-- The response of a command that raised. -/
def failed (e : ErrorKind) : Option Response := some ⟨e.status, none⟩

/-! ### Ill-formed terms are refused -/

theorem test_wf_refuses_dec_wider_than_port :
    (Instr.dec (2 ^ 32)).wf BuildParams.defaults = false := by decide
theorem test_wf_refuses_narrow_dec_port :
    BuildParams.wf { BuildParams.defaults with decInWidth := 24 } = false := by decide
theorem test_wf_refuses_other_operand_tuple :
    RawCommand.wellShaped ⟨0x02#8, [.nat 1]⟩ = false := by decide +kernel
theorem test_grammar_refuses_empty_digit_run : ¬ IsDigits [] := fun h => h.1 rfl
theorem test_grammar_refuses_leading_point : ¬ IsBinaryFraction [chDot, chOne] := by
  rintro ⟨pre, ip, fp, hp, ⟨hne, hd⟩, -, h⟩
  rcases hp with rfl | rfl
  · rcases ip with _ | ⟨c, cs⟩
    · exact hne rfl
    · have := hd c (by simp)
      have hc : chDot = c := by simpa using (List.cons.inj h).1
      subst hc
      exact absurd this (by decide)
  · exact absurd (List.cons.inj h).1 (by decide)

/-! ### Words written out from R51 -/

theorem test_decode_parse : decode ⟨0b00000001#8, [.bytes [0x31#8]]⟩ = .ok (.parse [0x31#8]) := by
  decide +kernel
theorem test_decode_enc : decode ⟨0b00000010#8, [.rat (15 / 4)]⟩ = .ok (.enc (15 / 4)) := by
  decide +kernel
theorem test_decode_dec : decode ⟨0b00000011#8, [.nat 0x40E000]⟩ = .ok (.dec 0x40E000) := by
  decide +kernel
theorem test_decode_ptgen : decode ⟨0b00000100#8, [.nat 2, .rat (1 / 20)]⟩ = .ok (.ptgen 2 (1 / 20)) := by
  decide +kernel
theorem test_decode_frac2d : decode ⟨0b00000101#8, [.nat 31, .nat 5, .nat 1]⟩ = .ok (.frac2d 31 5 1) := by
  decide +kernel
theorem test_illegal_words :
    [0x00#8, 0x06#8, 0x80#8, 0xFF#8].map decodeOpcode = [none, none, none, none] := by decide +kernel
theorem test_table_word_is_fetched :
    decodeTableWord 8 0x05 = some (.frac2d 0 0 0) ∧ decodeTableWord 8 0x06 = none := by decide +kernel

/-! ### One step, one response (§2.1 to §2.6) -/

theorem test_parse_value :
    respOf BuildParams.defaults (.parse [0x30#8, 0x62#8, 0x31#8, 0x30#8, 0x2E#8, 0x31#8, 0x31#8, 0x31#8])
      = good (.rat (23 / 8)) := by decide +kernel
theorem test_parse_mark_stripped_once :
    respOf BuildParams.defaults (.parse [0x30#8, 0x62#8, 0x30#8, 0x62#8, 0x31#8]) = failed .formatError := by
  decide +kernel
theorem test_enc_truncates : respOf BuildParams.defaults (.enc (-1 / 10)) = good (.word24 0xBB9999#24) := by
  decide +kernel
theorem test_enc_range_error : respOf BuildParams.defaults (.enc (-2 ^ 65)) = failed .rangeError := by
  decide +kernel
theorem test_dec_value : respOf BuildParams.defaults (.dec 0xC30400) = good (.rat (-65 / 4)) := by
  decide +kernel
theorem test_dec_range_error : respOf BuildParams.defaults (.dec 0x1000000) = failed .rangeError := by
  decide +kernel
theorem test_ptgen_table : respOf upward (.ptgen 1 (1 / 20)) = good (.table 5 32
    ([0, 0, 1, 1, 1, 2, 2, 2, 3, 3, 3, 3, 4, 4, 4, 5, 5, 5, 6, 6, 6, 7, 7, 7, 8, 8, 8, 8, 9, 9, 9, 9].map
      (fun d => [d]))) := by decide +kernel
theorem test_ptgen_domain_error : respOf BuildParams.defaults (.ptgen 2 (-1 / 20)) = failed .domainError := by
  decide +kernel
theorem test_frac2d_tie_to_even : respOf BuildParams.defaults (.frac2d 32 8 2) = good (.digits [1, 2]) := by
  decide +kernel
theorem test_frac2d_domain_before_range :
    respOf BuildParams.defaults (.frac2d 32 5 0) = failed .domainError := by decide +kernel
theorem test_step_illegal_word : respOfLine ".word 0x00" = failed .illegalOp := by decide +kernel
theorem test_step_assembled_line : respOfLine "ENC -16.25  # P1" = good (.word24 0xC30400#24) := by
  decide +kernel
theorem test_step_assembled_bytes : respOfLine "PARSE \"\\x31.1\"" = good (.rat (3 / 2)) := by decide +kernel
theorem test_binary64_operand : binary64Value 0x400E000000000000#64 = some (15 / 4) := by decide +kernel
theorem test_table_bytes :
    serializeTable .ascii [[1, 2], [9, 9]] = [0x31#8, 0x32#8, 0x39#8, 0x39#8] := by decide +kernel

/-! ### Witnesses: each statement's hypotheses are met by something -/

/-- A state with these inputs. -/
def facing (es : List HostEvent) : State := { State.reset with inbox := es }

/-- A state whose `RESP` holds an earlier error. -/
def soiled : State := { State.reset with resp := failed .rangeError }

theorem test_witness_ResetClearsResponseOnly :
    ∃ (s : State) (rest : List HostEvent), s.inbox = .reset :: rest ∧ s.resp ≠ none :=
  ⟨{ soiled with inbox := [.reset] }, [], rfl, by decide⟩
theorem test_witness_StepRunsDecodedCommand :
    ∃ (s : State) (c : RawCommand) (rest : List HostEvent) (i : Instr),
      s.inbox = .issue c :: rest ∧ decode c = .ok i :=
  ⟨facing [.issue ⟨0x01#8, [.bytes []]⟩], _, [], .parse [], rfl, by decide +kernel⟩
theorem test_witness_IdleStepChangesNothing : ∃ s : State, s.inbox = [] := ⟨soiled, rfl⟩
theorem test_witness_IllegalWordRaisesIllegalOp : ∃ s u t : State,
    s.inbox = [.issue ⟨0x00#8, [.nat 1]⟩] ∧ (0x00#8 : Byte).toNat = 0 ∧
    u.inbox = [.issue ⟨0x06#8, []⟩] ∧ 6 ≤ (0x06#8 : Byte).toNat ∧
    t.inbox = [.issue ⟨0xFF#8, []⟩] ∧ 6 ≤ (0xFF#8 : Byte).toNat :=
  ⟨facing [.issue ⟨0x00#8, [.nat 1]⟩], facing [.issue ⟨0x06#8, []⟩], facing [.issue ⟨0xFF#8, []⟩],
    rfl, rfl, rfl, by decide, rfl, by decide⟩
theorem test_witness_DecodeAndEncodeAgree : ∃ c i, decode c = .ok i :=
  ⟨⟨0x01#8, [.bytes []]⟩, .parse [], by decide +kernel⟩
theorem test_witness_OpcodeFixesOperandTuple : ∃ (s : State) (c : RawCommand) (op : Opcode),
    s.inbox = [.issue c] ∧ decodeOpcode c.word = some op ∧ c.operands.map operandKind ≠ operandKinds op :=
  ⟨facing [.issue ⟨encodeOpcode .DEC, []⟩], _, .DEC, rfl, decodeOpcode_encodeOpcode _, by decide⟩
theorem test_witness_PresentedCommandsNeverStop : ∃ s : State, s.Presentable ∧ s.inbox.length = 3 := by
  refine ⟨facing [.issue (encode (.enc 1)), .reset, .issue ⟨0x00#8, [.nat 1]⟩], ?_, rfl⟩
  intro c hc
  simp only [facing, List.mem_cons, HostEvent.issue.injEq, List.not_mem_nil, or_false, reduceCtorEq, false_or] at hc
  rcases hc with rfl | rfl <;> decide +kernel
theorem test_witness_EveryCommandWritesOneResponse : ∃ s t : State, step s = .next t ∧
    (∀ c, s.inbox.head? ≠ some (.issue c)) ∧ s.inbox.head? ≠ some .reset :=
  ⟨soiled, soiled, rfl, by simp [soiled], by simp [soiled]⟩
theorem test_witness_ResponseIgnoresPastCommands : ∃ s u : State, s.build = u.build ∧ s ≠ u :=
  ⟨State.reset, soiled, rfl, by decide⟩
theorem test_witness_LastCommandDeterminesResponse : ∃ (s : State) (is : List Instr) (i : Instr),
    s.inbox = (is ++ [i]).map (fun j => HostEvent.issue (encode j)) ∧ is ≠ [] :=
  ⟨facing [.issue (encode (.enc 1)), .issue (encode (.enc 2))], [.enc 1], .enc 2, rfl, by simp⟩
theorem test_witness_StepKeepsBuildParameters : ∃ s t : State, step s = .next t ∧ s ≠ t :=
  ⟨facing [.reset], State.reset, rfl, by decide⟩
theorem test_witness_StepKeepsResponseWellFormed : ∃ s t : State, s.Inv ∧ step s = .next t ∧ s ≠ t :=
  ⟨facing [.reset], State.reset, fun _ h => (by cases h), rfl, by decide⟩
theorem test_witness_ErrorsRaisedByNamedCommands :
    respOf BuildParams.defaults (.parse []) = failed .formatError ∧
    respOf BuildParams.defaults (.dec (2 ^ 24)) = failed .rangeError ∧
    respOf BuildParams.defaults (.ptgen 0 1) = failed .domainError := by decide +kernel
theorem digits_one : IsDigits [chOne] := ⟨by simp, by decide⟩
theorem test_witness_ParseValueIsDigitSum : ∃ (s : State) (ip fp : List Byte), IsDigits ip ∧ IsDigits fp ∧
    s.build.parseMaxLen = some 5 ∧ ([chZero, chB] ++ ip ++ chDot :: fp).length = 5 ∧
    exceeds s.build.parseMaxLen ([chZero, chB] ++ ip ++ chDot :: fp).length = false ∧
    exceeds s.build.parseMaxLen ([] ++ ip).length = false :=
  ⟨built { BuildParams.defaults with parseMaxLen := some 5 }, [chOne], [chOne], digits_one, digits_one,
    rfl, rfl, rfl, rfl⟩
theorem test_witness_FormatErrorConditions :
    [[0x32#8], [chOne, chB], [chOne, chDot, chOne, chDot, chOne], [], [chOne, chDot]].map
      (fun str => respOf BuildParams.defaults (.parse str)) = List.replicate 5 (failed .formatError) ∧
    respOf { BuildParams.defaults with parseMaxLen := some 2 } (.parse [chOne, chDot, chOne]) =
      failed .formatError ∧
    respOf { BuildParams.defaults with parseMaxLen := some 3 } (.parse [chOne, chDot, chOne]) =
      good (.rat (3 / 2)) := by decide +kernel
theorem test_witness_InternalParsesNeverRaise : (65535 : Nat) < 2 ^ 16 ∧ 1 ≤ 1 ∧ (1 : Nat) < 2 ^ 1 ∧
    (∃ n, Instr.dec 1 = .dec n) ∧ ∃ d p, Instr.ptgen 1 (1 / 2) = .ptgen d p :=
  ⟨by decide, by decide, by decide, ⟨1, rfl⟩, 1, 1 / 2, rfl⟩
theorem test_witness_WordIsItsThreeFields : (127 : Nat) < 2 ^ 7 ∧ (65535 : Nat) < 2 ^ 16 ∧
    packWord true 127 65535 = 0xFFFFFF#24 := by decide +kernel
theorem test_witness_DecRejectsWidePatterns : 25 ≤ 25 ∧ (2 ^ 24 : Nat) < 2 ^ 25 ∧
    decPortRangeError 25 (2 ^ 24) = true ∧ decPortRangeError 25 (2 ^ 24 - 1) = false := by decide +kernel
theorem test_witness_DecComputesFormatValue : (0 : Nat) < 2 ^ 24 ∧ (0xFFFFFF : Nat) < 2 ^ 24 ∧
    f24val 0xFFFFFF#24 = -36893206672442392576 := by decide +kernel
theorem test_witness_DecResultSign : Nat.testBit 0xFFFFFF 23 = true ∧ Nat.testBit 1 23 = false ∧
    0xFFFFFF < 2 ^ 24 := by decide +kernel
theorem test_witness_RepresentableValues : 0 < f24val 0x000001#24 ∧ f24val 0x800000#24 < 0 ∧
    f24val 0x7FFFFF#24 ≠ 0 := by decide +kernel
theorem test_witness_PatternOrderIsMagnitudeOrder :
    (0x000000#24).toNat < (0x000001#24).toNat ∧ signBit 0x000000#24 = false ∧ signBit 0x000001#24 = false ∧
    (0x800000#24).toNat < (0xFFFFFF#24).toNat ∧ signBit 0x800000#24 = true ∧ signBit 0xFFFFFF#24 = true := by
  decide +kernel
theorem test_witness_EncPacksTruncatedMantissa : ∀ k ∈ [(-64 : ℤ), -63, 64, 65],
    (2 : ℚ) ^ k ≠ 0 ∧ (2 : ℚ) ^ k ≤ |(2 : ℚ) ^ k| ∧ |(2 : ℚ) ^ k| < (2 : ℚ) ^ (k + 1) := by
  intro k _
  have h : (0 : ℚ) < 2 ^ k := by positivity
  refine ⟨h.ne', le_abs_self _, ?_⟩
  rw [abs_of_pos h]
  exact zpow_lt_zpow_right₀ (by norm_num) (by omega)
theorem test_witness_EncZeroGivesZeroPattern :
    ∃ v x, binary64Value v = some x ∧ x = 0 := ⟨0x8000000000000000#64, 0, by decide +kernel, rfl⟩
theorem test_witness_EncRangeErrorExactly : EncInRange 0 ∧ EncInRange 1 ∧ ¬ EncInRange ((2 : ℚ) ^ (65 : ℤ)) := by
  refine ⟨.inl rfl, .inr ?_, ?_⟩ <;> norm_num [EncInRange]
theorem test_witness_NormalizationLoopFindsShift : ∀ k ∈ [(-64 : ℤ), 0, 65],
    (0 : ℚ) < 2 ^ k ∧ (2 : ℚ) ^ k ≤ 2 ^ k ∧ (2 : ℚ) ^ k < 2 ^ (k + 1) :=
  fun k _ => ⟨by positivity, le_refl _, zpow_lt_zpow_right₀ (by norm_num) (by omega)⟩
theorem test_witness_FractionLoopTruncates : (0 : ℚ) ≤ 1 - 1 / 2 ^ 17 ∧ (1 - 1 / 2 ^ 17 : ℚ) < 1 ∧
    fractionLoop 16 1 (1 - 1 / 2 ^ 17) 0 = 65535 := by decide +kernel
theorem test_witness_ZeroAliasBandEncodesToZero : InZeroAliasBand ((2 : ℚ) ^ (-63 : ℤ)) ∧
    InZeroAliasBand ((2 : ℚ) ^ (-63 : ℤ) * (1 + (2 : ℚ) ^ (-17 : ℤ))) := by
  constructor <;> norm_num [InZeroAliasBand]
theorem test_witness_RoundTripTruncationBound : EncInRange ((2 : ℚ) ^ (-63 : ℤ)) ∧
    InZeroAliasBand ((2 : ℚ) ^ (-63 : ℤ)) ∧ EncInRange (-(2 : ℚ) ^ (-63 : ℤ)) ∧
    ¬ InZeroAliasBand (-(2 : ℚ) ^ (-63 : ℤ)) ∧ (2 : ℚ) ^ (-63 : ℤ) ≤ |-(2 : ℚ) ^ (-63 : ℤ)| ∧
    |-(2 : ℚ) ^ (-63 : ℤ)| < (2 : ℚ) ^ (-63 + 1 : ℤ) := by
  refine ⟨.inr ?_, ?_, .inr ?_, ?_, ?_, ?_⟩ <;> norm_num [InZeroAliasBand, abs_of_pos]
theorem test_witness_EncIsMonotone : (0 : ℚ) < 1 ∧ (1 : ℚ) < 2 ∧ EncInRange 1 ∧ EncInRange 2 := by
  refine ⟨by norm_num, by norm_num, .inr ?_, .inr ?_⟩ <;> norm_num
theorem test_witness_EncSignSymmetry : (0 : ℚ) < (2 : ℚ) ^ (-63 : ℤ) ∧ EncInRange ((2 : ℚ) ^ (-63 : ℤ)) := by
  refine ⟨by positivity, .inr ?_⟩
  norm_num [abs_of_pos]
theorem test_witness_RoundingPrimitives : (0 : ℚ) ≤ 5 / 2 ∧ Int.fract (5 / 2 : ℚ) = 1 / 2 ∧
    roundTie .halfEven (5 / 2) = 2 ∧ roundTie .halfUp (5 / 2) = 3 := by decide +kernel
theorem test_witness_DigitStringsHaveTheirValue : (15 : Nat) < 2 ^ 4 ∧ (999 : Nat) < 10 ^ 3 ∧
    binStr 4 6 = [chZero, chOne, chOne, chZero] ∧ decDigits 3 907 = [9, 0, 7] := by decide +kernel
theorem test_witness_BitsRequiredIsLeast : 1 ≤ 1 ∧ (0 : ℚ) < 1 / 2 ∧ (2 : ℚ) ^ (-1 : ℤ) ≤ (1 / 2) ^ 1 := by
  norm_num
theorem test_witness_PtgenDomainChecks :
    [(0, 1 / 2), (1, 0), (1, 1)].map (fun q : Nat × Rat => respOf BuildParams.defaults (.ptgen q.1 q.2)) =
      List.replicate 3 (failed .domainError) ∧
    respOf { BuildParams.defaults with maxTableBits := some 1 } (.ptgen 1 (1 / 4)) = failed .domainError ∧
    respOf { BuildParams.defaults with maxTableBits := some 1 } (.ptgen 1 (1 / 2)) =
      good (.table 1 2 [[0], [5]]) := by decide +kernel
theorem test_witness_PtgenTableEntries : 1 ≤ 1 ∧ (0 : ℚ) < 1 / 2 ∧ (1 / 2 : ℚ) < 1 ∧
    ((1 : Nat) : ℤ) = bitsRequired 1 (1 / 2) ∧ exceeds (some 1) 1 = false ∧ (1 : Nat) < 2 ^ 1 := by
  decide +kernel
theorem test_witness_CorrectionReplacesZeroSuffix :
    ([[5]] : List (List Digit)).getLast? ≠ some (List.replicate 1 0) ∧
    ([] : List (List Digit)).getLast? ≠ some (List.replicate 1 0) := by decide +kernel
theorem test_witness_CorrectedEntriesAreOverflows : 1 ≤ 5 ∧ 1 ≤ 1 ∧ (31 : Nat) < 2 ^ 5 ∧
    roundedEntry .halfEven 31 5 1 = 10 ^ 1 ∧ roundedEntry .halfEven 30 5 1 ≠ 10 ^ 1 := by decide +kernel
theorem test_witness_TiesAndExactness : (64 : Nat) < 2 ^ 9 ∧ 6 + 2 + 1 = 9 ∧ 2 ^ 6 ∣ 64 ∧ ¬ 2 ^ (6 + 1) ∣ 64 ∧
    Int.fract ((64 : ℚ) * 10 ^ 2 / 2 ^ 9) = 1 / 2 ∧ Int.fract ((65 : ℚ) * 10 ^ 2 / 2 ^ 9) ≠ 1 / 2 ∧
    5 < 2 ^ 3 ∧ 3 ≤ 3 ∧ 1 + 1 ≤ 2 ∧ (1 : Nat) < 2 ^ 2 ∧
    roundedEntry .halfUp 1 2 1 ≠ roundedEntry .halfEven 1 2 1 := by decide +kernel
theorem test_witness_Frac2dChecksThenDigits :
    respOf BuildParams.defaults (.frac2d 0 0 2) = failed .domainError ∧
    respOf { BuildParams.defaults with maxTableBits := some 7 } (.frac2d 0 8 2) = failed .domainError ∧
    respOf { BuildParams.defaults with maxTableBits := some 8 } (.frac2d 256 8 2) = failed .rangeError ∧
    respOf { BuildParams.defaults with maxTableBits := some 8 } (.frac2d 255 8 2) =
      good (.digits [9, 9]) := by decide +kernel
theorem test_witness_Frac2dIsPtgenEntry : (0 : ℚ) < 1 / 20 ∧ (1 / 20 : ℚ) < 1 ∧
    ((5 : Nat) : ℤ) = bitsRequired 1 (1 / 20) ∧ exceeds none 5 = false ∧ (31 : Nat) < 2 ^ 5 := by
  decide +kernel
theorem test_witness_TableBytesLayout : (∀ e ∈ ([[1, 2], [9, 9]] : List (List Digit)), e.length = 2) ∧
    1 < ([[1, 2], [9, 9]] : List (List Digit)).length ∧ 1 < 2 := by decide +kernel
theorem test_witness_DyadicTripleIsExact : IsDyadic (-65 / 4) ∧
    dyadicTriple (-65 / 4) = ⟨true, -2, 65⟩ := ⟨⟨2, by decide +kernel⟩, by decide +kernel⟩
theorem test_witness_QuotedTextWritesAnyBytes : ∃ hex : Nat → Char, ∀ k, k < 16 → charDigit (hex k) = some k :=
  ⟨fun k => Char.ofNat (if k < 10 then 0x30 + k else 0x57 + k), by decide +kernel⟩

end Sys2Proof.Machine.Tests
end

section
/-! PROOF. The statements of spec/00_scope.md: the rounding primitives (R11), the digit strings (R10), the wire
triple of rational results (R7, D30) and the reset state's build parameters (R7). -/

namespace Sys2Proof.Machine

/-! ### Rounding (R11) -/

theorem roundTie_of_fract_lt {mode : TieMode} {q : ℚ} (hq : 0 ≤ q) (h : Int.fract q < 1 / 2) :
    (roundTie mode q : ℤ) = ⌊q⌋ := by
  rw [roundTie_cases mode q hq, if_pos h]

theorem roundTie_of_lt_fract {mode : TieMode} {q : ℚ} (hq : 0 ≤ q) (h : 1 / 2 < Int.fract q) :
    (roundTie mode q : ℤ) = ⌊q⌋ + 1 := by
  rw [roundTie_cases mode q hq, if_neg h.not_gt, if_pos h]

theorem roundTie_halfUp_of_tie {q : ℚ} (hq : 0 ≤ q) (h : Int.fract q = 1 / 2) :
    (roundTie .halfUp q : ℤ) = ⌊q⌋ + 1 := by
  simp [roundTie_cases .halfUp q hq, h]

theorem roundTie_halfEven_of_tie {q : ℚ} (hq : 0 ≤ q) (h : Int.fract q = 1 / 2) :
    (roundTie .halfEven q : ℤ) = if ⌊q⌋ % 2 = 0 then ⌊q⌋ else ⌊q⌋ + 1 := by
  simp [roundTie_cases .halfEven q hq, h]

/-- Whichever way a tie goes, the result is one of the two integers around the argument. -/
theorem roundTie_of_tie (mode : TieMode) {q : ℚ} (hq : 0 ≤ q) (h : Int.fract q = 1 / 2) :
    (roundTie mode q : ℤ) = ⌊q⌋ ∨ (roundTie mode q : ℤ) = ⌊q⌋ + 1 := by
  cases mode with
  | halfUp => exact .inr (roundTie_halfUp_of_tie hq h)
  | halfEven =>
    rw [roundTie_halfEven_of_tie hq h]
    exact ite_eq_or_eq _ _ _

theorem even_roundTie_halfEven {q : ℚ} (hq : 0 ≤ q) (h : Int.fract q = 1 / 2) :
    Even (roundTie .halfEven q) := by
  have hr := roundTie_halfEven_of_tie hq h
  rw [Nat.even_iff]
  split_ifs at hr <;> omega

/-- The floor is within 1/2 when the fractional part is at most 1/2, its successor when it is at least 1/2. -/
theorem abs_roundTie_sub_le (mode : TieMode) {q : ℚ} (hq : 0 ≤ q) :
    |(roundTie mode q : ℚ) - q| ≤ 1 / 2 := by
  have hfloor : (⌊q⌋ : ℚ) + Int.fract q = q := Int.floor_add_fract q
  have hnear : ((roundTie mode q : ℤ) = ⌊q⌋ ∧ Int.fract q ≤ 1 / 2) ∨
      ((roundTie mode q : ℤ) = ⌊q⌋ + 1 ∧ 1 / 2 ≤ Int.fract q) := by
    rcases lt_trichotomy (Int.fract q) (1 / 2) with h | h | h
    · exact .inl ⟨roundTie_of_fract_lt hq h, h.le⟩
    · exact (roundTie_of_tie mode hq h).imp (⟨·, h.le⟩) (⟨·, h.ge⟩)
    · exact .inr ⟨roundTie_of_lt_fract hq h, h.le⟩
  rw [abs_le]
  rcases hnear with ⟨hr, h⟩ | ⟨hr, h⟩
  · have hr' : (roundTie mode q : ℚ) = ⌊q⌋ := by exact_mod_cast hr
    constructor <;> linarith [Int.fract_nonneg q]
  · have hr' : (roundTie mode q : ℚ) = ⌊q⌋ + 1 := by exact_mod_cast hr
    constructor <;> linarith [Int.fract_lt_one q]

theorem trunc16_cast {r : ℚ} (h : 0 ≤ r) : (trunc16 r : ℤ) = ⌊r * 2 ^ 16⌋ := by
  rw [trunc16_eq, Int.toNat_of_nonneg (Int.floor_nonneg.mpr (by positivity))]

/-- Settles O41: the two integers around `q` are told apart by the fractional part. -/
theorem roundingPrimitives : Obligations.RoundingPrimitives := by
  refine ⟨fun mode q hq => ⟨abs_roundTie_sub_le mode hq, fun h => ⟨?_, ?_⟩⟩,
    fun r hr _ => trunc16_cast hr⟩
  · rintro rfl
    exact roundTie_halfUp_of_tie hq h
  · rintro rfl
    exact ⟨even_roundTie_halfEven hq h, roundTie_of_tie _ hq h⟩

/-! ### Digit strings (R10, R49) -/

/-- Dropping the last digit of a number divides the weight of each digit before it by the base. -/
theorem div_div_pow_of_lt (base v : Nat) {n j : Nat} (hj : j < n) :
    v / base / base ^ (n - 1 - j) = v / base ^ (n - j) := by
  rw [Nat.div_div_eq_div_mul, ← pow_succ', show n - 1 - j + 1 = n - j by omega]

theorem binStr_getElem? (n v : Nat) {j : Nat} (hj : j < n) :
    (binStr n v)[j]? = some (bitChar (v / 2 ^ (n - 1 - j) % 2 == 1)) := by
  induction n generalizing v with
  | zero => omega
  | succ n ih =>
    rcases Nat.lt_succ_iff_lt_or_eq.mp hj with h | rfl
    · rw [binStr, List.getElem?_append_left (by rwa [binStr_length]), ih _ h, div_div_pow_of_lt 2 v h,
        Nat.add_sub_cancel]
    · simp [binStr, binStr_length]

theorem decDigits_getElem? (n v : Nat) {j : Nat} (hj : j < n) :
    ((decDigits n v)[j]?).map Fin.val = some (v / 10 ^ (n - 1 - j) % 10) := by
  induction n generalizing v with
  | zero => omega
  | succ n ih =>
    rcases Nat.lt_succ_iff_lt_or_eq.mp hj with h | rfl
    · rw [decDigits, List.getElem?_append_left (by rwa [decDigits_length]), ih _ h,
        div_div_pow_of_lt 10 v h, Nat.add_sub_cancel]
    · simp [decDigits, decDigits_length]

/-- A digit appended to an entry has the weight of its place. -/
theorem entryValue_append_singleton (ds : List Digit) (d : Digit) :
    entryValue (ds ++ [d]) = entryValue ds + (d.val : ℚ) / 10 ^ (ds.length + 1) := by
  induction ds with
  | nil => simp [entryValue]
  | cons e es ih =>
    simp only [List.cons_append, entryValue, ih, List.length_cons]
    field_simp
    ring

theorem entryValue_decDigits {n v : Nat} (hv : v < 10 ^ n) :
    entryValue (decDigits n v) = (v : ℚ) / 10 ^ n := by
  induction n generalizing v with
  | zero => simp [decDigits, entryValue, Nat.lt_one_iff.mp hv]
  | succ n ih =>
    have hdiv : v / 10 < 10 ^ n := by rw [pow_succ] at hv; omega
    have hsplit : (v : ℚ) = 10 * (v / 10 : ℕ) + (v % 10 : ℕ) := by
      exact_mod_cast (Nat.div_add_mod v 10).symm
    rw [decDigits, entryValue_append_singleton, ih hdiv, decDigits_length, hsplit]
    field_simp
    ring

/-- Settles O42, by induction on the number of digits, the last one first. -/
theorem digitStringsHaveTheirValue : Obligations.DigitStringsHaveTheirValue := by
  refine ⟨fun n v _ => ⟨binStr_length n v, fun j hj => ?_⟩, fun n v hv =>
    ⟨decDigits_length n v, fun j hj => decDigits_getElem? n v hj, entryValue_decDigits hv⟩⟩
  rw [binStr_getElem? n v hj]
  simp [bitChar]

/-! ### The wire triple (R7, D30) -/

/-- Taking out factors of two and counting them keeps the number that the pair stands for. -/
theorem oddPart_mul_pow (f m k : Nat) : (oddPart f m k).1 * 2 ^ (oddPart f m k).2 = m * 2 ^ k := by
  induction f generalizing m k with
  | zero => rfl
  | succ f ih =>
    rw [oddPart]
    split_ifs with h
    · rw [ih, pow_succ', ← mul_assoc, Nat.div_mul_cancel (Nat.dvd_of_mod_eq_zero h.1)]
    · rfl

/-- As many halvings as the bit length allows leave an odd number. -/
theorem oddPart_odd {f m : Nat} (k : Nat) (hm : m ≠ 0) (hf : m < 2 ^ (f + 1)) :
    (oddPart f m k).1 % 2 = 1 := by
  induction f generalizing m k with
  | zero => simp only [oddPart]; omega
  | succ f ih =>
    rw [oddPart]
    split_ifs with h
    · exact ih _ (by omega) (by rw [pow_succ] at hf; omega)
    · simp only; omega

theorem dyadicTriple_zero : dyadicTriple 0 = ⟨false, 0, 0⟩ := rfl

theorem dyadicTriple_of_ne_zero {q : ℚ} (hq : q ≠ 0) :
    dyadicTriple q = ⟨decide (q < 0), ((oddPart (Nat.log2 q.num.natAbs) q.num.natAbs 0).2 : ℤ) -
      (Nat.log2 q.den : ℤ), (oddPart (Nat.log2 q.num.natAbs) q.num.natAbs 0).1⟩ := if_neg hq

/-- A rational is its sign times numerator over denominator. -/
theorem sign_mul_natAbs_num_div_den (q : ℚ) :
    (if q < 0 then -1 else 1) * ((q.num.natAbs : ℚ) / q.den) = q := by
  have habs : (q.num.natAbs : ℚ) / q.den = |q| := by
    rw [Nat.cast_natAbs, Int.cast_abs, ← Nat.abs_cast q.den, ← abs_div, Rat.num_div_den]
  rw [habs]
  split_ifs with h
  · rw [abs_of_neg h, neg_one_mul, neg_neg]
  · rw [abs_of_nonneg (not_lt.mp h), one_mul]

theorem dyadicTriple_value {q : ℚ} (h : IsDyadic q) : (dyadicTriple q).value = q := by
  rcases eq_or_ne q 0 with rfl | hq
  · simp [dyadicTriple_zero, DyadicTriple.value]
  obtain ⟨k, hk⟩ := h
  have hnum : ((oddPart (Nat.log2 q.num.natAbs) q.num.natAbs 0).1 : ℚ) *
      2 ^ (oddPart (Nat.log2 q.num.natAbs) q.num.natAbs 0).2 = q.num.natAbs := by
    exact_mod_cast (oddPart_mul_pow _ _ 0).trans (mul_one _)
  conv_rhs => rw [← sign_mul_natAbs_num_div_den q, ← hnum, hk]
  simp only [dyadicTriple_of_ne_zero hq, DyadicTriple.value, pow2_eq_zpow, hk, Nat.log2_two_pow,
    decide_eq_true_eq, zpow_sub₀ (two_ne_zero' ℚ), zpow_natCast]
  push_cast
  ring

theorem dyadicTriple_significand (q : ℚ) :
    (dyadicTriple q).significand = 0 ∨ (dyadicTriple q).significand % 2 = 1 := by
  rcases eq_or_ne q 0 with rfl | hq
  · simp [dyadicTriple_zero]
  · rw [dyadicTriple_of_ne_zero hq]
    exact .inr (oddPart_odd 0 (Int.natAbs_ne_zero.mpr (Rat.num_ne_zero.mpr hq)) Nat.lt_log2_self)

/-- Settles O53: the value of a triple gives back the rational it was made from. -/
theorem dyadicTripleIsExact : Obligations.DyadicTripleIsExact := by
  refine ⟨fun q h => ⟨dyadicTriple_value h, dyadicTriple_significand q⟩, fun q r hq hr heq => ?_⟩
  rw [← dyadicTriple_value hq, heq, dyadicTriple_value hr]

/-! ### The reset state (R7) -/

/-- Settles O2: the reset state carries the defaults, which are R7's default column. -/
theorem resetUsesDefaultParameters : Obligations.ResetUsesDefaultParameters := by
  rw [Obligations.ResetUsesDefaultParameters, reset_build]
  exact ⟨rfl, by decide⟩

end Sys2Proof.Machine
end

section
/-! PROOF. The statements of spec/10_state.md: the step and its frame (R13, R14, R18), the one write of `RESP`
(R20), and the invariant of what `RESP` holds (R19). -/

namespace Sys2Proof.Machine

/-! ### Dyadic rationals (R59, R64) -/

/-- A rational is dyadic when some power of two clears its denominator; the form with the exact denominator and
this one agree because a divisor of a power of two is one. -/
theorem isDyadic_iff {q : ℚ} : IsDyadic q ↔ ∃ (m : ℤ) (k : ℕ), q = m / 2 ^ k := by
  constructor
  · rintro ⟨k, hk⟩
    exact ⟨q.num, k, by simpa [hk] using (Rat.num_div_den q).symm⟩
  · rintro ⟨m, k, rfl⟩
    have hdvd : (m / 2 ^ k : ℚ).den ∣ 2 ^ k := by exact_mod_cast Rat.den_dvd m (2 ^ k)
    obtain ⟨j, -, hj⟩ := (Nat.dvd_prime_pow Nat.prime_two).mp hdvd
    exact ⟨j, hj⟩

theorem isDyadic_intCast (m : ℤ) : IsDyadic m := isDyadic_iff.mpr ⟨m, 0, by simp⟩

theorem isDyadic_natCast (n : ℕ) : IsDyadic n := isDyadic_intCast n

theorem isDyadic_natCast_div_two_pow (n k : ℕ) : IsDyadic (n / 2 ^ k) := isDyadic_iff.mpr ⟨n, k, by simp⟩

theorem IsDyadic.mul {p q : ℚ} (hp : IsDyadic p) (hq : IsDyadic q) : IsDyadic (p * q) := by
  obtain ⟨m, j, rfl⟩ := isDyadic_iff.mp hp
  obtain ⟨n, k, rfl⟩ := isDyadic_iff.mp hq
  refine isDyadic_iff.mpr ⟨m * n, j + k, ?_⟩
  push_cast
  rw [div_mul_div_comm, pow_add]

theorem IsDyadic.add {p q : ℚ} (hp : IsDyadic p) (hq : IsDyadic q) : IsDyadic (p + q) := by
  obtain ⟨m, j, rfl⟩ := isDyadic_iff.mp hp
  obtain ⟨n, k, rfl⟩ := isDyadic_iff.mp hq
  refine isDyadic_iff.mpr ⟨m * 2 ^ k + n * 2 ^ j, j + k, ?_⟩
  push_cast
  rw [pow_add]
  field_simp

theorem isDyadic_pow2 (k : ℤ) : IsDyadic (pow2 k) := by
  cases k with
  | ofNat n => exact isDyadic_natCast _
  | negSucc n => simpa [pow2] using isDyadic_natCast_div_two_pow 1 (n + 1)

/-- The running divisor of the fraction loop stays a power of two. -/
theorem isDyadic_fractionPart (cs : List Byte) (k : ℕ) {v : ℚ} (hv : IsDyadic v) :
    IsDyadic (fractionPart cs (2 ^ k) v) := by
  induction cs generalizing k v with
  | nil => exact hv
  | cons c cs ih =>
    rw [fractionPart, ← pow_succ']
    refine ih (k + 1) (hv.add ?_)
    simpa using isDyadic_natCast_div_two_pow (digitOf c) (k + 1)

theorem isDyadic_of_bfparse {s : List Byte} {v : ℚ} (h : bfparse s = .ok v) : IsDyadic v := by
  rw [bfparse_eq] at h
  rcases parseUnmarked_cases (stripBinaryMark s) with ⟨-, ht⟩ | ⟨ip, fp, -, -, -, ht⟩ | ht <;>
    rw [ht] at h <;> cases h
  · exact isDyadic_natCast _
  · exact isDyadic_fractionPart fp 0 (isDyadic_natCast _)

/-- The value is a sign times a power of two times the parser's mantissa, and zero is an integer. -/
theorem isDyadic_of_decodeFloat24 {n : ℕ} {q : ℚ} (h : decodeFloat24 n = .ok q) : IsDyadic q := by
  have hsign (c : Bool) : IsDyadic (if c then -1 else 1) := by
    cases c
    · exact isDyadic_intCast 1
    · exact isDyadic_intCast (-1)
  unfold decodeFloat24 at h
  split at h
  · cases h
  split at h
  · cases h
    exact isDyadic_natCast 0
  dsimp only at h
  split at h <;> cases h
  rename_i m hm
  exact ((hsign _).mul (isDyadic_pow2 _)).mul (isDyadic_of_bfparse hm)

/-! ### The shape of a table (R82, R88) -/

theorem length_of_rawEntry {mode : TieMode} {b d i : ℕ} {e : List Digit}
    (h : rawEntry mode b d i = .ok e) : e.length = d := by
  unfold rawEntry at h
  split at h <;> cases h
  exact decDigits_length d _

/-- A list of raw entries that did not raise has one entry per index, each of `D` digits. -/
theorem shape_of_rawEntries {mode : TieMode} {b d : ℕ} {is : List ℕ} {t : List (List Digit)}
    (h : rawEntries mode b d is = .ok t) : t.length = is.length ∧ ∀ e ∈ t, e.length = d := by
  induction is generalizing t with
  | nil => cases h; simp
  | cons i is ih =>
    rw [rawEntries] at h
    split at h
    · cases h
    rename_i e he
    split at h <;> cases h
    rename_i ts hts
    obtain ⟨hlen, hwidth⟩ := ih hts
    exact ⟨by simp [hlen], List.forall_mem_cons.mpr ⟨length_of_rawEntry he, hwidth⟩⟩

theorem shape_of_rawTable {mode : TieMode} {b d : ℕ} {t : List (List Digit)}
    (h : rawTable mode b d = .ok t) : t.length = 2 ^ b ∧ ∀ e ∈ t, e.length = d := by
  simpa using shape_of_rawEntries h

/-! ### What each command returns is well formed (R19, R49) -/

theorem wellFormed_of_parseOutcome {bp : BuildParams} {str : List Byte} {v : Result}
    (h : parseOutcome bp str = .ok v) : v.WellFormed := by
  unfold parseOutcome at h
  split at h
  · cases h
  split at h <;> cases h
  rename_i hq
  exact isDyadic_of_bfparse hq

theorem wellFormed_of_encOutcome {x : ℚ} {v : Result} (h : encOutcome x = .ok v) : v.WellFormed := by
  unfold encOutcome at h
  split at h <;> cases h
  trivial

theorem wellFormed_of_decOutcome {n : ℕ} {v : Result} (h : decOutcome n = .ok v) : v.WellFormed := by
  unfold decOutcome at h
  split at h <;> cases h
  rename_i hq
  exact isDyadic_of_decodeFloat24 hq

/-- The domain checks leave `D ≥ 1` and `B ≥ 1`, and the correction keeps the raw table's shape. -/
theorem wellFormed_of_ptgenOutcome {bp : BuildParams} {d : ℕ} {p : ℚ} {v : Result}
    (h : ptgenOutcome bp d p = .ok v) : v.WellFormed := by
  unfold ptgenOutcome at h
  split_ifs at h with hd _ hb
  dsimp only at h
  split at h <;> cases h
  rename_i t ht
  obtain ⟨hlen, hwidth⟩ := shape_of_rawTable ht
  exact ⟨by omega, (correctTable_length d t).trans hlen, d, by omega, rfl, correctTable_width hwidth⟩

theorem wellFormed_of_frac2dOutcome {bp : BuildParams} {i b d : ℕ} {v : Result}
    (h : frac2dOutcome bp i b d = .ok v) : v.WellFormed := by
  unfold frac2dOutcome at h
  split_ifs at h with hd
  cases h
  have hlen : 1 ≤ d := by omega
  simpa [Result.WellFormed, decDigits_length] using hlen

theorem wellFormed_of_instrOutcome {bp : BuildParams} {i : Instr} {v : Result}
    (h : instrOutcome bp i = .ok v) : v.WellFormed := by
  cases i with
  | parse str => exact wellFormed_of_parseOutcome h
  | enc x => exact wellFormed_of_encOutcome h
  | dec n => exact wellFormed_of_decOutcome h
  | ptgen d p => exact wellFormed_of_ptgenOutcome h
  | frac2d k b d => exact wellFormed_of_frac2dOutcome h

/-! ### The invariant (R19) -/

theorem ErrorKind.status_ne_ok (e : ErrorKind) : e.status ≠ .ok := by cases e <;> decide

theorem inv_of_resp_eq_none {s : State} (h : s.resp = none) : s.Inv := by simp [State.Inv, h]

theorem inv_complete (s : State) {v : Result} (hv : v.WellFormed) : (s.complete v).Inv := by
  simpa [State.Inv, Response.WellFormed] using hv

theorem inv_raise (s : State) (e : ErrorKind) : (s.raise e).Inv := by
  simp [State.Inv, Response.WellFormed, e.status_ne_ok]

/-- Any response, whatever `RESP` held before, makes the invariant true. -/
theorem inv_respond_instrOutcome (s : State) (bp : BuildParams) (i : Instr) :
    (s.respond (instrOutcome bp i)).Inv := by
  cases hr : instrOutcome bp i with
  | ok v => exact inv_complete s (wellFormed_of_instrOutcome hr)
  | error e => exact inv_raise s e

/-- Settles O15, by the four things a step can do: only the idle step needs the invariant before it. -/
theorem stepKeepsResponseWellFormed : Obligations.StepKeepsResponseWellFormed := by
  intro s t hs h
  rcases step_cases h with ⟨-, rfl⟩ | ⟨_, -, rfl⟩ | ⟨_, _, i, -, -, rfl⟩ | ⟨_, _, _, -, -, rfl⟩
  · exact hs
  · exact inv_of_resp_eq_none (hostReset_resp _)
  · exact inv_respond_instrOutcome _ _ i
  · exact inv_raise _ _

/-- Settles O16: after reset `RESP` holds nothing. -/
theorem resetResponseWellFormed : Obligations.ResetResponseWellFormed := inv_of_resp_eq_none reset_resp

/-! ### The step and its frame (R13, R14, R18, R20) -/

/-- Settles O14: each of the four things a step can do keeps the build parameters and takes one input. -/
theorem stepKeepsBuildParameters : Obligations.StepKeepsBuildParameters := by
  intro s t h
  rcases step_cases h with ⟨hin, rfl⟩ | ⟨_, -, rfl⟩ | ⟨_, _, _, -, -, rfl⟩ | ⟨_, _, _, -, -, rfl⟩
  · simp [hin]
  all_goals simp

theorem stepCommand_of_decode_ok {c : RawCommand} {i : Instr} (h : decode c = .ok i) (s : State) :
    stepCommand c s = exec i s := by
  simp [stepCommand, h]

/-- Settles O3: taking the input is the only thing that comes before the command. -/
theorem stepRunsDecodedCommand : Obligations.StepRunsDecodedCommand := by
  intro s c rest i hin hd
  rw [step_issue hin, stepCommand_of_decode_ok hd, taken_eq hin]

/-- Settles O4: it is the step's idle case. -/
theorem idleStepChangesNothing : Obligations.IdleStepChangesNothing := fun _ => step_idle

/-! ### The one write of `RESP` (R14, R20) -/

/-- The response that ends a command: `OK` with its value, or its error with none (R12, R20). -/
def responseOf : Except ErrorKind Result → Response
  | .ok v => ⟨.ok, some v⟩
  | .error e => ⟨e.status, none⟩

theorem responseOf_cases (r : Except ErrorKind Result) :
    (∃ v, responseOf r = ⟨.ok, some v⟩) ∨ ∃ e : ErrorKind, responseOf r = ⟨e.status, none⟩ := by
  cases r with
  | ok v => exact .inl ⟨v, rfl⟩
  | error e => exact .inr ⟨e, rfl⟩

/-- To respond is to write `RESP` and nothing else. -/
theorem respond_eq (s : State) (r : Except ErrorKind Result) :
    s.respond r = { s with resp := some (responseOf r) } := by
  cases r <;> rfl

/-- A command writes `RESP` with what the build parameters and the command alone determine. -/
theorem exec_writes_responseOf (i : Instr) (s : State) :
    exec i s = .next { s with resp := some (responseOf (instrOutcome s.build i)) } := by
  rw [exec_eq_respond, respond_eq]

/-- Settles O10: a command's response is its only write, and a step that takes no input is idle. -/
theorem everyCommandWritesOneResponse : Obligations.EveryCommandWritesOneResponse := by
  refine ⟨fun i s => ⟨_, exec_writes_responseOf i s, responseOf_cases _⟩, fun s t h hissue hreset => ?_⟩
  have hidle : s.inbox = [] := by
    rcases hin : s.inbox with _ | ⟨_ | _, rest⟩
    · rfl
    · exact absurd (by rw [hin]; rfl) (hissue _)
    · exact absurd (by rw [hin]; rfl) hreset
  rw [step_idle hidle] at h
  cases h
  rfl

/-- Settles O11: the response depends on the state through the build parameters only. -/
theorem responseIgnoresPastCommands : Obligations.ResponseIgnoresPastCommands := by
  intro i s u hbuild
  exact ⟨_, exec_writes_responseOf i s, by rw [hbuild, exec_writes_responseOf]⟩

end Sys2Proof.Machine
end

section
/-! PROOF. The statements of spec/20_memory.md: the serialized word (R28) and table (R29), and the ordering of
commands (R33, R36). -/

namespace Sys2Proof.Machine

/-! ### Repeated and consecutive commands (R33, R36, R111) -/

/-- Settles O12: the response is a function of the build parameters, which the write of `RESP` leaves as they
were. -/
theorem repeatedCommandIsIdempotent : Obligations.RepeatedCommandIsIdempotent :=
  fun i s => ⟨_, exec_writes_responseOf i s, exec_writes_responseOf i _⟩

theorem decode_encode (i : Instr) : decode (encode i) = .ok i := by
  simp [decode, encode, readOperands_operands]

theorem step_encode {s : State} {i : Instr} {rest : List HostEvent} (h : s.inbox = .issue (encode i) :: rest) :
    step s = .next { s with resp := some (responseOf (instrOutcome s.build i)), inbox := rest } := by
  rw [stepRunsDecodedCommand s _ rest i h (decode_encode i), exec_writes_responseOf]

/-- The whole state after a sequence of commands: the last response, and the inbox taken empty. -/
theorem run_encoded_commands (is : List Instr) (i : Instr) (s : State)
    (h : s.inbox = (is ++ [i]).map (fun j => HostEvent.issue (encode j))) :
    Host.Core.run Sys2Proof.core (is.length + 1) s =
      .next { s with resp := some (responseOf (instrOutcome s.build i)), inbox := [] } := by
  induction is generalizing s with
  | nil => rw [run_succ _ (step_encode h)]; rfl
  | cons j js ih => rw [List.length_cons, run_succ _ (step_encode h), ih _ rfl]

/-- Settles O13: the last response of the run is a function of the command and of the build parameters, which the
freshly reset block shares. -/
theorem lastCommandDeterminesResponse : Obligations.LastCommandDeterminesResponse := fun s is i h =>
  ⟨_, _, run_encoded_commands is i s h, exec_writes_responseOf i _, rfl, rfl, rfl⟩

/-! ### The serialized word (R28) -/

theorem word_eq_append_bytes (w : Word24) :
    w = w.extractLsb' 16 8 ++ w.extractLsb' 8 8 ++ w.extractLsb' 0 8 := by
  rw [BitVec.extractLsb'_append_extractLsb'_eq_extractLsb' (by rfl),
    BitVec.extractLsb'_append_extractLsb'_eq_extractLsb' (by rfl), BitVec.extractLsb'_eq_self]

/-- Settles O51: the three bytes are the fields `w[23:16]`, `w[15:8]` and `w[7:0]`. -/
theorem wordBytesByOrder : Obligations.WordBytesByOrder := fun w =>
  ⟨_, _, _, word_eq_append_bytes w, rfl, rfl⟩

/-! ### The serialized table (R29) -/

@[simp] theorem serializeTable_nil (c : DigitCode) : serializeTable c [] = [] := rfl

@[simp] theorem serializeTable_cons (c : DigitCode) (e : List Digit) (es : List (List Digit)) :
    serializeTable c (e :: es) = e.map (digitByte c) ++ serializeTable c es := rfl

theorem length_serializeTable (c : DigitCode) {d : ℕ} {es : List (List Digit)} (h : ∀ e ∈ es, e.length = d) :
    (serializeTable c es).length = d * es.length := by
  induction es with
  | nil => rfl
  | cons e es ih =>
    obtain ⟨he, hes⟩ := List.forall_mem_cons.mp h
    rw [serializeTable_cons, List.length_append, List.length_map, he, ih hes, List.length_cons, Nat.mul_succ,
      Nat.add_comm]

/-- Digit `k` of entry `i` is `k` bytes after the `i` entries of `d` bytes before it. -/
theorem getElem?_serializeTable (c : DigitCode) {d : ℕ} {es : List (List Digit)} (h : ∀ e ∈ es, e.length = d)
    {i k : ℕ} (hi : i < es.length) (hk : k < d) :
    (serializeTable c es)[i * d + k]? = ((es[i]?).bind (fun e => e[k]?)).map (digitByte c) := by
  induction es generalizing i with
  | nil => cases hi
  | cons e es ih =>
    obtain ⟨rfl, hes⟩ := List.forall_mem_cons.mp h
    cases i with
    | zero => simp [List.getElem?_append_left, hk]
    | succ i =>
      have hskip : (i + 1) * e.length + k = (e.map (digitByte c)).length + (i * e.length + k) := by
        rw [List.length_map, Nat.succ_mul]; omega
      rw [serializeTable_cons, hskip, List.getElem?_append_right (Nat.le_add_right _ _), Nat.add_sub_cancel_left,
        ih hes (Nat.lt_of_succ_lt_succ hi), List.getElem?_cons_succ]

theorem toNat_digitByte_ascii (g : Digit) : (digitByte .ascii g).toNat = 0x30 + g.val := by
  revert g; decide

theorem toNat_digitByte_binary (g : Digit) : (digitByte .binary g).toNat = g.val := by
  revert g; decide

/-- Settles O52: entries of one width lie one after another, so the place of a digit is a multiple of the width
plus its index. -/
theorem tableBytesLayout : Obligations.TableBytesLayout :=
  ⟨fun c _ _ h => ⟨length_serializeTable c h, fun _ _ hi hk => getElem?_serializeTable c h hi hk⟩,
    fun g => ⟨toNat_digitByte_ascii g, toNat_digitByte_binary g⟩⟩

end Sys2Proof.Machine
end

section
/-! PROOF. The statements of spec/30_encoding.md: the fields of a Float24 word (R41), its values and their order
(R46, R47), the grammar of a binary fraction (R48), the opcode map and the operand tuples (R50 to R55), and the
assembler text (R56). -/

namespace Sys2Proof.Machine

/-! ### The opcode map and the operand tuples (R50 to R53, R55) -/

theorem decodeOpcode_eq_none_iff (w : Byte) : decodeOpcode w = none ↔ ∀ op, w ≠ encodeOpcode op := by
  rw [Option.eq_none_iff_forall_ne_some]
  refine forall_congr' fun op => not_congr ⟨word_of_decodeOpcode, ?_⟩
  rintro rfl
  exact decodeOpcode_encodeOpcode op

/-- The words of R51 are the numbers 1 to 5. -/
theorem forall_ne_encodeOpcode_iff (w : Byte) :
    (∀ op, w ≠ encodeOpcode op) ↔ w.toNat = 0 ∨ 6 ≤ w.toNat := by
  constructor
  · intro h
    have hw (op : Opcode) : w.toNat ≠ (encodeOpcode op).toNat := fun e => h op (BitVec.eq_of_toNat_eq e)
    have h1 : w.toNat ≠ 1 := hw .PARSE
    have h2 : w.toNat ≠ 2 := hw .ENC
    have h3 : w.toNat ≠ 3 := hw .DEC
    have h4 : w.toNat ≠ 4 := hw .PTGEN
    have h5 : w.toNat ≠ 5 := hw .FRAC2D
    omega
  · rintro h op rfl
    cases op <;> simp [encodeOpcode] at h

theorem decodeOpcode_eq_none_iff_toNat (w : Byte) :
    decodeOpcode w = none ↔ w.toNat = 0 ∨ 6 ≤ w.toNat :=
  (decodeOpcode_eq_none_iff w).trans (forall_ne_encodeOpcode_iff w)

/-- An illegal word ends the decoding whatever operands come with it (R52, R96). -/
theorem decode_of_decodeOpcode_none {c : RawCommand} (h : decodeOpcode c.word = none) :
    decode c = .error (.illegalWord c.word) := by
  simp [decode, h]

theorem decode_eq_ok_iff_readOperands {c : RawCommand} {op : Opcode} (h : decodeOpcode c.word = some op)
    (i : Instr) : decode c = .ok i ↔ readOperands op c.operands = some i := by
  cases hr : readOperands op c.operands <;> simp [decode, h, hr]

/-- A defined word with another opcode's operands, or with none, is refused by name (log entry 3). -/
theorem decode_of_operandKind_ne {c : RawCommand} {op : Opcode} (h : decodeOpcode c.word = some op)
    (hk : c.operands.map operandKind ≠ operandKinds op) : decode c = .error (.operandShape c.word) := by
  have hr : readOperands op c.operands = none := by
    rw [Option.eq_none_iff_forall_ne_some]
    exact fun i hi => hk ((readOperands_isSome_iff op c.operands).mp ⟨i, hi⟩)
  simp [decode, h, hr]

theorem eq_encode_of_decode {c : RawCommand} {i : Instr} (h : decode c = .ok i) : c = encode i := by
  cases hop : decodeOpcode c.word with
  | none => rw [decode_of_decodeOpcode_none hop] at h; cases h
  | some op =>
    obtain ⟨rfl, hos⟩ := readOperands_some ((decode_eq_ok_iff_readOperands hop i).mp h)
    obtain ⟨w, os⟩ := c
    exact congrArg₂ RawCommand.mk (word_of_decodeOpcode hop) hos

/-- Settles O8: the decoder's only further test of a defined word is that its opcode reads the operands. -/
theorem opcodeFixesOperandTuple : Obligations.OpcodeFixesOperandTuple := by
  refine fun c op hop => ⟨?_, fun s rest hin hk => ?_⟩
  · simp only [decode_eq_ok_iff_readOperands hop, readOperands_isSome_iff]
  · rw [step_issue hin, stepCommand, decode_of_operandKind_ne hop hk]

/-- Settles O5: the step raises as soon as the word is seen to be outside the opcode map. -/
theorem illegalWordRaisesIllegalOp : Obligations.IllegalWordRaisesIllegalOp := by
  refine ⟨decodeOpcode_eq_none_iff_toNat, fun s w os rest hw hin => ?_⟩
  have hd : decode ⟨w, os⟩ = .error (.illegalWord w) :=
    decode_of_decodeOpcode_none ((decodeOpcode_eq_none_iff_toNat w).mpr hw)
  rw [step_issue hin, stepCommand, hd, taken_eq hin]
  rfl

/-- Settles O6: each written word is the encoder's, and the zero word is illegal. -/
theorem opcodeMapReadsWrittenWords : Obligations.OpcodeMapReadsWrittenWords :=
  ⟨fun str => decode_encode (.parse str), fun x => decode_encode (.enc x), fun n => decode_encode (.dec n),
    fun d p => decode_encode (.ptgen d p), fun i b d => decode_encode (.frac2d i b d),
    (decodeOpcode_eq_none_iff_toNat _).mpr (.inl rfl)⟩

/-- Settles O7: the decoder reads the encoder's word and tuple, and takes no other. -/
theorem decodeAndEncodeAgree : Obligations.DecodeAndEncodeAgree :=
  ⟨decode_encode, fun _ _ => eq_encode_of_decode⟩

/-! ### The grammar of a binary fraction (R48) -/

/-- A digit run has no `'b'`, so no mark is stripped from a string that begins with one and a point or an end. -/
theorem stripBinaryMark_of_isDigits {ip fp : List Byte} (h : IsDigits ip)
    (hfp : fp = [] ∨ ∃ ds, IsDigits ds ∧ fp = chDot :: ds) : stripBinaryMark (ip ++ fp) = ip ++ fp := by
  apply stripBinaryMark_unmarked
  intro hb
  have hmem : chB ∈ ip ++ fp := List.mem_of_getElem? hb
  rcases List.mem_append.mp hmem with hi | hf
  · exact isBit_ne_b (h.2 _ hi) rfl
  · rcases hfp with rfl | ⟨ds, hds, rfl⟩
    · cases hf
    · rcases List.mem_cons.mp hf with e | hm
      · exact absurd e (by decide)
      · exact isBit_ne_b (hds.2 _ hm) rfl

/-- The grammar without its optional mark. -/
theorem parseUnmarked_ok_iff (t : List Byte) : (∃ v, parseUnmarked t = .ok v) ↔
    ∃ ip fp, IsDigits ip ∧ (fp = [] ∨ ∃ ds, IsDigits ds ∧ fp = chDot :: ds) ∧ t = ip ++ fp := by
  constructor
  · rintro ⟨v, hv⟩
    rcases parseUnmarked_cases t with ⟨ht, -⟩ | ⟨ip, ds, hip, hds, rfl, -⟩ | herr
    · exact ⟨t, [], ht, .inl rfl, (List.append_nil t).symm⟩
    · exact ⟨ip, chDot :: ds, hip, .inr ⟨ds, hds, rfl⟩, rfl⟩
    · rw [herr] at hv; cases hv
  · rintro ⟨ip, fp, hip, rfl | ⟨ds, hds, rfl⟩, rfl⟩
    · exact ⟨_, by rw [List.append_nil]; exact parseUnmarked_integer hip⟩
    · exact ⟨_, parseUnmarked_point hip hds⟩

/-- Settles O21: the mark is stripped where the grammar has one, and the rest is digits, or digits about a
point. -/
theorem parserAcceptsGrammar : Obligations.ParserAcceptsGrammar := by
  intro str
  rw [bfparse_eq, parseUnmarked_ok_iff]
  constructor
  · rintro ⟨ip, fp, hip, hfp, hstr⟩
    rcases stripBinaryMark_cases str with hmark | hplain
    · exact ⟨[chZero, chB], ip, fp, .inr rfl, hip, hfp, by rw [hmark, hstr]; rfl⟩
    · exact ⟨[], ip, fp, .inl rfl, hip, hfp, hplain.symm.trans hstr⟩
  · rintro ⟨pre, ip, fp, rfl | rfl, hip, hfp, rfl⟩
    · exact ⟨ip, fp, hip, hfp, stripBinaryMark_of_isDigits hip hfp⟩
    · exact ⟨ip, fp, hip, hfp, stripBinaryMark_marked _⟩

/-! ### The fields of a word (R41) -/

theorem exponentField_lt (w : Word24) : exponentField w < 2 ^ 7 := (w.extractLsb' 16 7).isLt

theorem fractionField_lt (w : Word24) : fractionField w < 2 ^ 16 := (w.extractLsb' 0 16).isLt

theorem toNat_eq_fields (w : Word24) :
    w.toNat = (signBit w).toNat * 2 ^ 23 + exponentField w * 2 ^ 16 + fractionField w := by
  have hw := w.isLt
  rw [signBit_eq, exponentField_eq, fractionField_eq]
  by_cases h : 2 ^ 23 ≤ w.toNat
  · simp only [h, decide_true, Bool.toNat_true]; omega
  · simp only [h, decide_false, Bool.toNat_false]; omega

theorem packWord_fields (w : Word24) : packWord (signBit w) (exponentField w) (fractionField w) = w :=
  BitVec.eq_of_toNat_eq <|
    (packWord_toNat _ (exponentField_lt w) (fractionField_lt w)).trans (toNat_eq_fields w).symm

theorem signBit_packWord (s : Bool) {e fr : Nat} (he : e < 2 ^ 7) (hf : fr < 2 ^ 16) :
    signBit (packWord s e fr) = s := by
  rw [signBit_eq, packWord_toNat s he hf]
  cases s
  · simp only [Bool.toNat_false, decide_eq_false_iff_not]; omega
  · simp only [Bool.toNat_true, decide_eq_true_eq]; omega

theorem exponentField_packWord (s : Bool) {e fr : Nat} (he : e < 2 ^ 7) (hf : fr < 2 ^ 16) :
    exponentField (packWord s e fr) = e := by
  rw [exponentField_eq, packWord_toNat s he hf]
  omega

theorem fractionField_packWord (s : Bool) {e fr : Nat} (he : e < 2 ^ 7) (hf : fr < 2 ^ 16) :
    fractionField (packWord s e fr) = fr := by
  rw [fractionField_eq, packWord_toNat s he hf]
  omega

/-- Settles O23: packing adds the fields at their places, and the places do not overlap. -/
theorem wordIsItsThreeFields : Obligations.WordIsItsThreeFields :=
  ⟨fun w => ⟨toNat_eq_fields w, exponentField_lt w, fractionField_lt w, packWord_fields w⟩,
    fun s _ _ he hf => ⟨signBit_packWord s he hf, exponentField_packWord s he hf, fractionField_packWord s he hf⟩⟩

/-! ### The magnitude that a pattern without its sign stands for (R44, R46) -/

/-- The magnitude of the lower 23 bits: the exponent above, the sixteen fraction bits below. -/
def patternMagnitude (n : Nat) : ℚ :=
  (2 : ℚ) ^ (((n / 2 ^ 16 : Nat) : ℤ) - 63) * (1 + ((n % 2 ^ 16 : Nat) : ℚ) / 2 ^ 16)

theorem patternMagnitude_pos (n : Nat) : 0 < patternMagnitude n := by
  unfold patternMagnitude
  positivity

/-- The 17 significant bits: a leading one before the fraction bits. -/
theorem patternMagnitude_eq_significand (n : Nat) :
    patternMagnitude n = ((2 ^ 16 + n % 2 ^ 16 : Nat) : ℚ) * (2 : ℚ) ^ (((n / 2 ^ 16 : Nat) : ℤ) - 79) := by
  have hexp : (2 : ℚ) ^ (((n / 2 ^ 16 : Nat) : ℤ) - 63) = 2 ^ (((n / 2 ^ 16 : Nat) : ℤ) - 79) * 2 ^ 16 := by
    rw [← zpow_natCast, ← zpow_add₀ two_ne_zero]
    congr 1
    push_cast
    ring
  rw [patternMagnitude, hexp]
  push_cast
  ring

/-- The next pattern adds one unit to the fraction, which carries into the exponent after sixteen ones. -/
theorem patternMagnitude_strictMono : StrictMono patternMagnitude := by
  refine strictMono_nat_of_lt_succ fun n => ?_
  simp only [patternMagnitude_eq_significand]
  have hpos : (0 : ℚ) < 2 ^ (((n / 2 ^ 16 : Nat) : ℤ) - 79) := by positivity
  by_cases hcarry : n % 2 ^ 16 = 2 ^ 16 - 1
  · have hquot : (n + 1) / 2 ^ 16 = n / 2 ^ 16 + 1 := by omega
    have hfrac : (n + 1) % 2 ^ 16 = 0 := by omega
    have hexp : (2 : ℚ) ^ (((n / 2 ^ 16 + 1 : Nat) : ℤ) - 79) = 2 ^ (((n / 2 ^ 16 : Nat) : ℤ) - 79) * 2 := by
      rw [← zpow_add_one₀ two_ne_zero]
      congr 1
      push_cast
      ring
    rw [hquot, hfrac, hcarry, hexp]
    generalize (2 : ℚ) ^ (((n / 2 ^ 16 : Nat) : ℤ) - 79) = p at hpos
    norm_num
    linarith
  · have hquot : (n + 1) / 2 ^ 16 = n / 2 ^ 16 := by omega
    have hfrac : n % 2 ^ 16 < (n + 1) % 2 ^ 16 := by omega
    rw [hquot]
    exact mul_lt_mul_of_pos_right (by exact_mod_cast Nat.add_lt_add_left hfrac _) hpos

theorem patternMagnitude_zero : patternMagnitude 0 = (2 : ℚ) ^ (-63 : ℤ) := by
  norm_num [patternMagnitude]

theorem patternMagnitude_one :
    patternMagnitude 1 = (2 : ℚ) ^ (-63 : ℤ) * (1 + (2 : ℚ) ^ (-16 : ℤ)) := by
  norm_num [patternMagnitude]

theorem patternMagnitude_last : patternMagnitude (2 ^ 23 - 1) = 2 ^ 65 - 2 ^ 48 := by
  norm_num [patternMagnitude]

/-! ### The value of a word by its sign (R44) -/

theorem signBit_eq_false_iff (w : Word24) : signBit w = false ↔ w.toNat < 2 ^ 23 := by
  rw [signBit_eq, decide_eq_false_iff_not, not_le]

theorem signBit_eq_true_iff (w : Word24) : signBit w = true ↔ 2 ^ 23 ≤ w.toNat := by
  rw [signBit_eq, decide_eq_true_eq]

theorem f24val_zero : f24val 0#24 = 0 := if_pos rfl

theorem f24val_of_ne_zero {w : Word24} (h : w ≠ 0#24) :
    f24val w = (if signBit w then -1 else 1) * patternMagnitude (w.toNat % 2 ^ 23) := by
  have hexp : w.toNat % 2 ^ 23 / 2 ^ 16 = exponentField w := by rw [exponentField_eq]; omega
  have hfrac : w.toNat % 2 ^ 23 % 2 ^ 16 = fractionField w := by rw [fractionField_eq]; omega
  rw [f24val, if_neg h, pow2_eq_zpow, patternMagnitude, hexp, hfrac, mul_assoc]
  norm_num [Config.bias]

theorem f24val_of_signBit_false {w : Word24} (h : w ≠ 0#24) (hs : signBit w = false) :
    f24val w = patternMagnitude w.toNat := by
  rw [f24val_of_ne_zero h, hs, Nat.mod_eq_of_lt ((signBit_eq_false_iff w).mp hs)]
  simp

theorem f24val_of_signBit_true {w : Word24} (hs : signBit w = true) :
    f24val w = -patternMagnitude (w.toNat - 2 ^ 23) := by
  have hle := (signBit_eq_true_iff w).mp hs
  have hne : w ≠ 0#24 := by rintro rfl; cases hs
  have hmod : w.toNat % 2 ^ 23 = w.toNat - 2 ^ 23 := by omega
  rw [f24val_of_ne_zero hne, hs, hmod]
  simp

/-- What a word can stand for: zero, or the magnitude of a non-zero pattern of sign 0, or the negated magnitude of
any pattern of sign 1. -/
theorem f24val_cases (w : Word24) : f24val w = 0 ∨
    (∃ n, 1 ≤ n ∧ n ≤ 2 ^ 23 - 1 ∧ f24val w = patternMagnitude n) ∨
    ∃ n, n ≤ 2 ^ 23 - 1 ∧ f24val w = -patternMagnitude n := by
  have hw := w.isLt
  by_cases h0 : w = 0#24
  · exact .inl (h0 ▸ f24val_zero)
  have hne : w.toNat ≠ 0 := fun e => h0 (BitVec.eq_of_toNat_eq e)
  cases hs : signBit w with
  | false =>
    have hlt := (signBit_eq_false_iff w).mp hs
    exact .inr (.inl ⟨w.toNat, by omega, by omega, f24val_of_signBit_false h0 hs⟩)
  | true => exact .inr (.inr ⟨w.toNat - 2 ^ 23, by omega, f24val_of_signBit_true hs⟩)

/-! ### The representable values (R46) -/

theorem f24val_le_of_neg {w : Word24} (h : f24val w < 0) : f24val w ≤ -(2 : ℚ) ^ (-63 : ℤ) := by
  rcases f24val_cases w with h0 | ⟨n, -, -, hn⟩ | ⟨n, -, hn⟩
  · exact absurd h0 h.ne
  · exact absurd h (hn ▸ (patternMagnitude_pos n).not_gt)
  · rw [hn, ← patternMagnitude_zero]
    exact neg_le_neg (patternMagnitude_strictMono.monotone n.zero_le)

theorem le_f24val_of_pos {w : Word24} (h : 0 < f24val w) :
    (2 : ℚ) ^ (-63 : ℤ) * (1 + (2 : ℚ) ^ (-16 : ℤ)) ≤ f24val w := by
  rcases f24val_cases w with h0 | ⟨n, hn1, -, hn⟩ | ⟨n, -, hn⟩
  · exact absurd h0 h.ne'
  · rw [hn, ← patternMagnitude_one]
    exact patternMagnitude_strictMono.monotone hn1
  · rw [hn] at h
    exact absurd h (neg_nonpos.mpr (patternMagnitude_pos n).le).not_gt

/-- A value that is not zero has the magnitude of a pattern of 23 bits. -/
theorem abs_f24val_of_val_ne_zero {w : Word24} (h : f24val w ≠ 0) :
    ∃ n, n ≤ 2 ^ 23 - 1 ∧ |f24val w| = patternMagnitude n := by
  rcases f24val_cases w with h0 | ⟨n, -, hn2, hn⟩ | ⟨n, hn2, hn⟩
  · exact absurd h0 h
  · exact ⟨n, hn2, by rw [hn, abs_of_pos (patternMagnitude_pos n)]⟩
  · exact ⟨n, hn2, by rw [hn, abs_neg, abs_of_pos (patternMagnitude_pos n)]⟩

theorem abs_f24val_le (w : Word24) : |f24val w| ≤ 2 ^ 65 - 2 ^ 48 := by
  by_cases h : f24val w = 0
  · rw [h]; norm_num
  · obtain ⟨n, hn, habs⟩ := abs_f24val_of_val_ne_zero h
    rw [habs, ← patternMagnitude_last]
    exact patternMagnitude_strictMono.monotone hn

/-- The one magnitude that only the negative sign has: the zero pattern takes the place of `+2^-63`. -/
theorem f24val_ne_two_zpow (w : Word24) : f24val w ≠ (2 : ℚ) ^ (-63 : ℤ) := by
  intro h
  have hle := le_f24val_of_pos (w := w) (by rw [h]; positivity)
  rw [h] at hle
  norm_num at hle

/-- A word packed from fields that are not all zero has the value that R44 gives them. -/
theorem f24val_packWord (s : Bool) {e fr : Nat} (he : e < 2 ^ 7) (hf : fr < 2 ^ 16)
    (h : packWord s e fr ≠ 0#24) : f24val (packWord s e fr) =
      (if s then -1 else 1) * ((2 : ℚ) ^ ((e : ℤ) - 63) * (1 + (fr : ℚ) / 2 ^ 16)) := by
  rw [f24val, if_neg h, signBit_packWord s he hf, exponentField_packWord s he hf, fractionField_packWord s he hf,
    pow2_eq_zpow, mul_assoc]
  norm_num [Config.bias]

theorem packWord_ne_zero {s : Bool} {e fr : Nat} (he : e < 2 ^ 7) (hf : fr < 2 ^ 16)
    (h : s = true ∨ e ≠ 0 ∨ fr ≠ 0) : packWord s e fr ≠ 0#24 := by
  intro h0
  have hs : s = false := by rw [← signBit_packWord s he hf, h0]; rfl
  have he0 : e = 0 := by rw [← exponentField_packWord s he hf, h0]; rfl
  have hf0 : fr = 0 := by rw [← fractionField_packWord s he hf, h0]; rfl
  rcases h with h | h | h
  · exact absurd (hs.symm.trans h) (by decide)
  · exact h he0
  · exact h hf0

/-- Every magnitude of R46 has a word with each sign, `+2^-63` excepted. -/
theorem exists_f24val_eq {q : ℚ} {e : ℤ} {k : Nat} (hq : q ≠ (2 : ℚ) ^ (-63 : ℤ)) (he : -63 ≤ e) (he' : e ≤ 64)
    (hk : k < 2 ^ 16) (habs : |q| = (2 : ℚ) ^ e * (1 + (k : ℚ) / 2 ^ 16)) : ∃ w, f24val w = q := by
  obtain ⟨n, hn⟩ := Int.eq_ofNat_of_zero_le (show 0 ≤ e + 63 by omega)
  obtain rfl : e = (n : ℤ) - 63 := by omega
  have hn7 : n < 2 ^ 7 := by omega
  have hne : packWord (decide (q < 0)) n k ≠ 0#24 := by
    refine packWord_ne_zero hn7 hk ?_
    by_contra hzero
    simp only [decide_eq_true_eq, not_or, not_not, not_lt] at hzero
    obtain ⟨hpos, rfl, rfl⟩ := hzero
    exact hq (by rw [← abs_of_nonneg hpos, habs]; norm_num)
  refine ⟨_, (f24val_packWord _ hn7 hk hne).trans ?_⟩
  rw [← habs]
  rcases lt_or_ge q 0 with hneg | hpos
  · simp [hneg, abs_of_neg]
  · simp [hpos.not_gt, abs_of_nonneg hpos]

theorem exists_f24val_eq_iff (q : ℚ) : (∃ w, f24val w = q) ↔ q = 0 ∨ (q ≠ (2 : ℚ) ^ (-63 : ℤ) ∧
    ∃ (e : ℤ) (k : Nat), -63 ≤ e ∧ e ≤ 64 ∧ k < 2 ^ 16 ∧ |q| = (2 : ℚ) ^ e * (1 + (k : ℚ) / 2 ^ 16)) := by
  constructor
  · rintro ⟨w, rfl⟩
    refine or_iff_not_imp_left.mpr fun h0 => ⟨f24val_ne_two_zpow w, ?_⟩
    obtain ⟨n, hn, habs⟩ := abs_f24val_of_val_ne_zero h0
    exact ⟨((n / 2 ^ 16 : Nat) : ℤ) - 63, n % 2 ^ 16, by omega, by omega, by omega, habs⟩
  · rintro (rfl | ⟨hq, e, k, he, he', hk, habs⟩)
    · exact ⟨0#24, f24val_zero⟩
    · exact exists_f24val_eq hq he he' hk habs

/-- Settles O28: the values are the magnitudes of the 23-bit patterns with a sign, and these grow with the
pattern, so the extremes stand at its ends. -/
theorem representableValues : Obligations.RepresentableValues := by
  refine ⟨exists_f24val_eq_iff, abs_f24val_le, ?_, ?_, fun _ => le_f24val_of_pos, ?_,
    fun _ => f24val_le_of_neg, ?_, fun w hw => ?_⟩
  · exact (f24val_of_signBit_false (by decide) rfl).trans patternMagnitude_last
  · exact (f24val_of_signBit_true rfl).trans (congrArg _ patternMagnitude_last)
  · exact (f24val_of_signBit_false (by decide) rfl).trans patternMagnitude_one
  · exact (f24val_of_signBit_true rfl).trans (congrArg _ patternMagnitude_zero)
  · obtain ⟨n, -, habs⟩ := abs_f24val_of_val_ne_zero hw
    exact ⟨_, _, by omega, by omega, habs.trans (patternMagnitude_eq_significand n)⟩

/-! ### The order of patterns (R47) -/

theorem f24val_pos_of_signBit_false {w : Word24} (h : w ≠ 0#24) (hs : signBit w = false) : 0 < f24val w :=
  f24val_of_signBit_false h hs ▸ patternMagnitude_pos _

theorem f24val_lt_of_signBit_false {v w : Word24} (h : v.toNat < w.toNat) (hv : signBit v = false)
    (hw : signBit w = false) : f24val v < f24val w := by
  have hw0 : w ≠ 0#24 := by rintro rfl; cases h
  by_cases hv0 : v = 0#24
  · rw [hv0, f24val_zero]
    exact f24val_pos_of_signBit_false hw0 hw
  · rw [f24val_of_signBit_false hv0 hv, f24val_of_signBit_false hw0 hw]
    exact patternMagnitude_strictMono h

theorem abs_f24val_lt_of_signBit_true {v w : Word24} (h : v.toNat < w.toNat) (hv : signBit v = true)
    (hw : signBit w = true) : |f24val v| < |f24val w| := by
  have hle := (signBit_eq_true_iff v).mp hv
  rw [f24val_of_signBit_true hv, f24val_of_signBit_true hw, abs_neg, abs_neg,
    abs_of_pos (patternMagnitude_pos _), abs_of_pos (patternMagnitude_pos _)]
  exact patternMagnitude_strictMono (by omega)

theorem f24val_neg_of_signBit_true {w : Word24} (hs : signBit w = true) : f24val w < 0 := by
  rw [f24val_of_signBit_true hs]
  exact neg_neg_of_pos (patternMagnitude_pos _)

/-- Settles O29: the magnitude grows with the lower 23 bits, and the sign bit reverses the values. -/
theorem patternOrderIsMagnitudeOrder : Obligations.PatternOrderIsMagnitudeOrder := by
  refine fun v w h => ⟨f24val_lt_of_signBit_false h, fun hv hw => ?_, fun hw => ?_, f24val_zero⟩
  · have habs := abs_f24val_lt_of_signBit_true h hv hw
    refine ⟨?_, habs⟩
    rwa [abs_of_neg (f24val_neg_of_signBit_true hv), abs_of_neg (f24val_neg_of_signBit_true hw),
      neg_lt_neg_iff] at habs
  · exact f24val_pos_of_signBit_false (by rintro rfl; cases h) hw

/-! ### The assembler text (R56, log entry 7) -/

/-- One escape of two hexadecimal digits is one byte. -/
theorem quotedBytes_escape {h l : Char} {a b : Nat} (ha : charDigit h = some a) (hb : charDigit l = some b)
    (rest : List Char) : quotedBytes (Char.ofNat 0x5C :: 'x' :: h :: l :: rest) =
      (quotedBytes rest).map (BitVec.ofNat 8 (16 * a + b) :: ·) := by
  rw [quotedBytes]
  simp [ha, hb]

theorem quotedBytes_closingQuote : quotedBytes [Char.ofNat 0x22] = some [] := rfl

/-- Settles O54, by induction on the string: the two hexadecimal digits of a byte give it back. -/
theorem quotedTextWritesAnyBytes : Obligations.QuotedTextWritesAnyBytes := by
  intro str hex hhex
  change quotedBytes _ = some str
  induction str with
  | nil => exact quotedBytes_closingQuote
  | cons c str ih =>
    have hc : c.toNat < 256 := c.isLt
    have hbyte : BitVec.ofNat 8 (16 * (c.toNat / 16) + c.toNat % 16) = c := by
      rw [Nat.div_add_mod, BitVec.ofNat_toNat, BitVec.setWidth_eq]
    simp only [List.flatMap_cons, List.cons_append, List.nil_append]
    rw [quotedBytes_escape (hhex _ (by omega)) (hhex _ (by omega)), ih, hbyte]
    rfl

/-- Settles O55: each line is a closed text, which the assembler evaluates. -/
theorem assemblerReadsSyntax : Obligations.AssemblerReadsSyntax := by
  unfold Obligations.AssemblerReadsSyntax
  decide +kernel

end Sys2Proof.Machine
end

section
/-! PROOF. The statements of spec/40_parse.md: the value of a binary fraction (R59), the conditions of `FormatError`
(R58), and the parses that the decoder and the table generator make (R61). -/

namespace Sys2Proof.Machine

/-! ### The value of a digit run (R57, R59) -/

theorem integerPart_append_list (s t : List Byte) :
    integerPart (s ++ t) = integerPart s * 2 ^ t.length + integerPart t := by
  induction t using List.reverseRecOn with
  | nil => simp [integerPart]
  | append_singleton t c ih =>
    rw [← List.append_assoc, integerPart_append, integerPart_append, ih, List.length_append, List.length_singleton]
    ring

theorem integerPart_cons (c : Byte) (cs : List Byte) :
    integerPart (c :: cs) = digitOf c * 2 ^ cs.length + integerPart cs := by
  simpa [integerPart] using integerPart_append_list [c] cs

theorem integerPart_replicate_zero (n : ℕ) : integerPart (List.replicate n chZero) = 0 := by
  induction n with
  | zero => rfl
  | succ n ih => rw [List.replicate_succ, integerPart_cons, ih]; simp [digitOf, chZero, chOne]

/-- The base-2 integer of a run is the sum of its digits' weights. -/
theorem integerPart_eq_sum (s : List Byte) : integerPart s =
    ∑ j ∈ Finset.range s.length, digitOf (s.getD j chZero) * 2 ^ (s.length - 1 - j) := by
  induction s with
  | nil => rfl
  | cons c cs ih =>
    have hweight (j : ℕ) : cs.length + 1 - 1 - (j + 1) = cs.length - 1 - j := by omega
    rw [integerPart_cons, ih, List.length_cons, Finset.sum_range_succ', add_comm]
    refine congrArg₂ _ (Finset.sum_congr rfl fun j _ => ?_) rfl
    rw [hweight, List.getD_cons_succ]

/-- The fraction loop adds the base-2 integer of the digits, divided by the divisor that it ends with. -/
theorem fractionPart_eq (cs : List Byte) {f : ℕ} (hf : f ≠ 0) (v : ℚ) :
    fractionPart cs f v = v + (integerPart cs : ℚ) / (f * 2 ^ cs.length) := by
  induction cs generalizing f v with
  | nil => simp [fractionPart, integerPart]
  | cons c cs ih =>
    rw [fractionPart, ih (by omega), integerPart_cons, List.length_cons]
    push_cast
    field_simp
    ring

/-- The two parts of a string as base-2 integers, the second one shifted behind the point. -/
theorem binaryValue_eq (ip fp : List Byte) :
    binaryValue ip fp = integerPart ip + (integerPart fp : ℚ) / 2 ^ fp.length := by
  have hweight {k : ℕ} (hk : k ∈ Finset.range fp.length) :
      (2 : ℚ) ^ (fp.length - 1 - k) / 2 ^ fp.length = 1 / 2 ^ (k + 1) := by
    have hlen : fp.length = fp.length - 1 - k + (k + 1) := by have := Finset.mem_range.mp hk; omega
    rw [div_eq_div_iff (by positivity) (by positivity), ← pow_add, one_mul, ← hlen]
  rw [binaryValue, integerPart_eq_sum, integerPart_eq_sum fp]
  push_cast
  rw [Finset.sum_div]
  refine congrArg _ (Finset.sum_congr rfl fun k hk => ?_)
  rw [mul_div_assoc, hweight hk, mul_one_div]

theorem fractionPart_integerPart (ip fp : List Byte) :
    fractionPart fp 1 (integerPart ip : ℚ) = binaryValue ip fp := by
  rw [fractionPart_eq fp one_ne_zero, binaryValue_eq, Nat.cast_one, one_mul]

theorem binaryValue_nil (ip : List Byte) : binaryValue ip [] = integerPart ip := by
  simp [binaryValue_eq, integerPart]

theorem binaryValue_nonneg (ip fp : List Byte) : 0 ≤ binaryValue ip fp := by
  rw [binaryValue_eq]
  positivity

theorem isDyadic_binaryValue (ip fp : List Byte) : IsDyadic (binaryValue ip fp) := by
  rw [binaryValue_eq]
  exact (isDyadic_natCast _).add (isDyadic_natCast_div_two_pow _ _)

/-- Outer zeros: the leading ones weigh nothing, and a trailing one doubles the numerator with the divisor. -/
theorem binaryValue_outer_zeros (ip fp : List Byte) (m n : ℕ) :
    binaryValue (List.replicate m chZero ++ ip) (fp ++ List.replicate n chZero) = binaryValue ip fp := by
  simp only [binaryValue_eq, integerPart_append_list, integerPart_replicate_zero, List.length_append,
    List.length_replicate]
  push_cast
  rw [zero_mul, zero_add, add_zero, pow_add, mul_div_mul_right _ _ (by positivity)]

/-! ### What the parser and `PARSE` answer (R57, R60) -/

/-- An optional mark before a string that the unmarked grammar accepts is what is stripped. -/
theorem stripBinaryMark_append {pre ip fp : List Byte} (hpre : pre = [] ∨ pre = [chZero, chB]) (hip : IsDigits ip)
    (hfp : fp = [] ∨ ∃ ds, IsDigits ds ∧ fp = chDot :: ds) : stripBinaryMark (pre ++ ip ++ fp) = ip ++ fp := by
  rcases hpre with rfl | rfl
  · exact stripBinaryMark_of_isDigits hip hfp
  · exact stripBinaryMark_marked _

theorem bfparse_integer {pre ip : List Byte} (hpre : pre = [] ∨ pre = [chZero, chB]) (hip : IsDigits ip) :
    bfparse (pre ++ ip) = .ok (binaryValue ip []) := by
  have hstrip := stripBinaryMark_append hpre hip (.inl rfl)
  simp only [List.append_nil] at hstrip
  rw [bfparse_eq, hstrip, parseUnmarked_integer hip, binaryValue_nil]

theorem bfparse_point {pre ip fp : List Byte} (hpre : pre = [] ∨ pre = [chZero, chB]) (hip : IsDigits ip)
    (hfp : IsDigits fp) : bfparse (pre ++ ip ++ chDot :: fp) = .ok (binaryValue ip fp) := by
  rw [bfparse_eq, stripBinaryMark_append hpre hip (.inr ⟨fp, hfp, rfl⟩), parseUnmarked_point hip hfp,
    fractionPart_integerPart]

/-- The parser answers the value of two digit strings, or raises `FormatError`. -/
theorem bfparse_cases (str : List Byte) :
    (∃ ip fp, bfparse str = .ok (binaryValue ip fp)) ∨ bfparse str = .error .formatError := by
  rw [bfparse_eq]
  rcases parseUnmarked_cases (stripBinaryMark str) with ⟨-, h⟩ | ⟨ip, fp, -, -, -, h⟩ | h
  · exact .inl ⟨_, [], h.trans (by rw [binaryValue_nil])⟩
  · exact .inl ⟨ip, fp, h.trans (by rw [fractionPart_integerPart])⟩
  · exact .inr h

theorem exec_parse_of_bfparse_ok {s : State} {str : List Byte} {v : ℚ}
    (hlen : exceeds s.build.parseMaxLen str.length = false) (hv : bfparse str = .ok v) :
    exec (.parse str) s = .next { s with resp := some ⟨.ok, some (.rat v)⟩ } := by
  simp [exec_parse, parseOutcome, hlen, hv, State.complete]

theorem exec_parse_of_formatError {s : State} {str : List Byte}
    (h : bfparse str = .error .formatError ∨ exceeds s.build.parseMaxLen str.length = true) :
    exec (.parse str) s = .next { s with resp := some ⟨.formatError, none⟩ } := by
  have hout : parseOutcome s.build str = .error .formatError := by
    rcases h with h | h <;> simp [parseOutcome, h]
  rw [exec_parse, hout]
  rfl

/-- Settles O19: the parser's integers and running sum are the digit sum, which is a natural number plus another
one over a power of two. -/
theorem parseValueIsDigitSum : Obligations.ParseValueIsDigitSum :=
  ⟨fun _ _ _ hpre hip hlen => exec_parse_of_bfparse_ok hlen (bfparse_integer hpre hip),
    fun _ _ _ _ hpre hip hfp hlen => exec_parse_of_bfparse_ok hlen (bfparse_point hpre hip hfp),
    fun ip fp => ⟨binaryValue_nonneg ip fp, isDyadic_binaryValue ip fp⟩,
    binaryValue_outer_zeros⟩

/-! ### The conditions of `FormatError` (R58) -/

/-- A byte outside the four that a string may hold (condition 1). -/
def IsForeignByte (c : Byte) : Prop := c ≠ chZero ∧ c ≠ chOne ∧ c ≠ chDot ∧ c ≠ chB

/-- A `'b'` anywhere except at index 1 after a `'0'` at index 0 (condition 2). -/
def HasMisplacedMark (str : List Byte) : Prop := ∃ j, str[j]? = some chB ∧ ¬ (j = 1 ∧ str[0]? = some chZero)

/-- Conditions 1 to 5. -/
def MeetsFormatErrorCondition (str : List Byte) : Prop :=
  (∃ c ∈ str, IsForeignByte c) ∨
  HasMisplacedMark str ∨
  1 < (stripBinaryMark str).count chDot ∨
  (stripBinaryMark str).takeWhile (fun c => c != chDot) = [] ∨
  chDot ∈ stripBinaryMark str ∧
    (stripBinaryMark str).drop (((stripBinaryMark str).takeWhile (fun c => c != chDot)).length + 1) = []

/-- The mark is stripped where `'0'` stands at index 0 and `'b'` at index 1. -/
theorem stripBinaryMark_eq_ite (str : List Byte) : stripBinaryMark str =
    if str[0]? = some chZero ∧ str[1]? = some chB then str.drop 2 else str := by
  unfold stripBinaryMark
  rcases str with _ | ⟨a, _ | ⟨b, t⟩⟩ <;> simp

theorem stripBinaryMark_marked_or_unmarked (str : List Byte) :
    str = chZero :: chB :: stripBinaryMark str ∨
      ¬ (str[0]? = some chZero ∧ str[1]? = some chB) ∧ stripBinaryMark str = str := by
  by_cases h : str[0]? = some chZero ∧ str[1]? = some chB
  · rcases str with _ | ⟨a, _ | ⟨b, t⟩⟩ <;> simp at h
    obtain ⟨rfl, rfl⟩ := h
    exact .inl (by rw [stripBinaryMark_marked])
  · exact .inr ⟨h, by rw [stripBinaryMark_eq_ite, if_neg h]⟩

/-- Condition 2 is a `'b'` left after the mark is stripped. -/
theorem hasMisplacedMark_iff (str : List Byte) : HasMisplacedMark str ↔ chB ∈ stripBinaryMark str := by
  rcases stripBinaryMark_marked_or_unmarked str with h | ⟨h, hstrip⟩
  · generalize stripBinaryMark str = t at h
    subst h
    constructor
    · rintro ⟨_ | _ | j, hj, hne⟩
      · simp [chZero, chB] at hj
      · simp at hne
      · exact List.mem_of_getElem? hj
    · intro hb
      obtain ⟨j, hj⟩ := List.getElem?_of_mem hb
      exact ⟨j + 2, hj, by omega⟩
  · rw [hstrip]
    constructor
    · rintro ⟨j, hj, -⟩
      exact List.mem_of_getElem? hj
    · intro hb
      obtain ⟨j, hj⟩ := List.getElem?_of_mem hb
      exact ⟨j, hj, fun ⟨hj1, h0⟩ => h ⟨h0, hj1 ▸ hj⟩⟩

/-- Neither byte of the mark meets condition 1. -/
theorem exists_isForeignByte_iff (str : List Byte) :
    (∃ c ∈ str, IsForeignByte c) ↔ ∃ c ∈ stripBinaryMark str, IsForeignByte c := by
  rcases stripBinaryMark_marked_or_unmarked str with h | ⟨-, hstrip⟩
  · generalize stripBinaryMark str = t at h
    subst h
    simp [IsForeignByte]
  · rw [hstrip]

theorem isBit_or_dot_iff (c : Byte) : (isBit c = true ∨ c = chDot) ↔ ¬ IsForeignByte c ∧ c ≠ chB := by
  have hbit : isBit c = true ↔ c = chZero ∨ c = chOne := by simp [isBit]
  constructor
  · rintro (h | rfl)
    · exact ⟨fun ⟨h0, h1, _⟩ => (hbit.mp h).elim h0 h1, isBit_ne_b h⟩
    · exact ⟨fun ⟨_, _, hdot, _⟩ => hdot rfl, by decide⟩
  · rw [hbit, IsForeignByte]
    tauto

/-- Conditions 1 and 2 fail together exactly when the bytes left after the mark are digits and points. -/
theorem forall_isBit_or_dot_iff (str : List Byte) :
    (∀ c ∈ stripBinaryMark str, isBit c = true ∨ c = chDot) ↔
      ¬ (∃ c ∈ str, IsForeignByte c) ∧ ¬ HasMisplacedMark str := by
  rw [exists_isForeignByte_iff, hasMisplacedMark_iff, ← List.forall_mem_ne']
  simp only [isBit_or_dot_iff, not_exists, not_and, forall_and]

theorem isDigits_iff (s : List Byte) :
    IsDigits s ↔ s ≠ [] ∧ chDot ∉ s ∧ ∀ c ∈ s, isBit c = true ∨ c = chDot := by
  refine and_congr_right fun _ => ⟨fun h => ⟨fun hm => isBit_ne_dot (h _ hm) rfl, fun c hc => .inl (h c hc)⟩, ?_⟩
  rintro ⟨hdot, h⟩ c hc
  exact (h c hc).resolve_right fun e => hdot (e ▸ hc)

theorem parseUnmarked_ok_iff_of_not_mem {t : List Byte} (h : chDot ∉ t) :
    (∃ v, parseUnmarked t = .ok v) ↔ IsDigits t := by
  rw [← isDigitRun_iff]
  cases hr : isDigitRun t <;> simp [parseUnmarked, List.count_eq_zero.mpr h, splitPoint_of_not_mem h, hr]

theorem parseUnmarked_point_ok_iff {ip fp : List Byte} (h : chDot ∉ ip) :
    (∃ v, parseUnmarked (ip ++ chDot :: fp) = .ok v) ↔ IsDigits ip ∧ IsDigits fp := by
  refine ⟨fun ⟨v, hv⟩ => ?_, fun ⟨hip, hfp⟩ => ⟨_, parseUnmarked_point hip hfp⟩⟩
  rw [← isDigitRun_iff, ← isDigitRun_iff]
  simp only [parseUnmarked, splitPoint_point h] at hv
  cases hi : isDigitRun ip <;> cases hf : isDigitRun fp <;> simp [hi, hf] at hv ⊢

/-- A string without its mark is accepted exactly when it holds only digits and at most one point, and has digits on
each side that it has. -/
theorem parseUnmarked_ok_iff_parts (t : List Byte) : (∃ v, parseUnmarked t = .ok v) ↔
    (∀ c ∈ t, isBit c = true ∨ c = chDot) ∧ ¬ 1 < t.count chDot ∧
      t.takeWhile (fun c => c != chDot) ≠ [] ∧
      ¬ (chDot ∈ t ∧ t.drop ((t.takeWhile (fun c => c != chDot)).length + 1) = []) := by
  rcases point_cases t with h | ⟨ip, fp, hip, rfl⟩
  · have htake : t.takeWhile (fun c => c != chDot) = t :=
      List.takeWhile_eq_self_iff.mpr fun c hc => bne_iff_ne.mpr fun e => h (e ▸ hc)
    have hcount : t.count chDot = 0 := List.count_eq_zero.mpr h
    rw [parseUnmarked_ok_iff_of_not_mem h, isDigits_iff, htake, hcount]
    simp only [h, not_false_eq_true, true_and, false_and, Nat.not_lt_zero, and_true]
    exact and_comm
  · have hcount : ¬ 1 < (ip ++ chDot :: fp).count chDot ↔ chDot ∉ fp := by
      simp [List.count_append, List.count_eq_zero.mpr hip]
    have hdrop : (ip ++ chDot :: fp).drop (ip.length + 1) = fp := by simp
    rw [parseUnmarked_point_ok_iff hip, isDigits_iff, isDigits_iff, takeWhile_point hip, hcount, hdrop]
    have hmem : chDot ∈ ip ++ chDot :: fp := by simp
    simp only [List.forall_mem_append, List.forall_mem_cons]
    tauto

theorem bfparse_ok_iff (str : List Byte) : (∃ v, bfparse str = .ok v) ↔ ¬ MeetsFormatErrorCondition str := by
  rw [bfparse_eq, parseUnmarked_ok_iff_parts, forall_isBit_or_dot_iff]
  simp only [MeetsFormatErrorCondition, not_or, and_assoc, ne_eq]

theorem bfparse_of_meetsFormatErrorCondition {str : List Byte} (h : MeetsFormatErrorCondition str) :
    bfparse str = .error .formatError :=
  (bfparse_cases str).resolve_left fun ⟨_, _, hv⟩ => (bfparse_ok_iff str).mp ⟨_, hv⟩ h

theorem bfparse_of_not_meetsFormatErrorCondition {str : List Byte} (h : ¬ MeetsFormatErrorCondition str) :
    ∃ v : ℚ, 0 ≤ v ∧ bfparse str = .ok v := by
  rcases bfparse_cases str with ⟨ip, fp, hv⟩ | herr
  · exact ⟨_, binaryValue_nonneg ip fp, hv⟩
  · obtain ⟨v, hv⟩ := (bfparse_ok_iff str).mpr h
    rw [hv] at herr
    cases herr

/-- Settles O20: the parser raises under conditions 1 to 5 only, and `PARSE` adds the length check. -/
theorem formatErrorConditions : Obligations.FormatErrorConditions := by
  intro str one two t three ip fp four five bad
  have hbad : bad ↔ MeetsFormatErrorCondition str := by
    rw [MeetsFormatErrorCondition, stripBinaryMark_eq_ite]
    exact Iff.rfl
  rw [hbad]
  refine ⟨bfparse_of_meetsFormatErrorCondition, fun h => ?_, fun s => ?_⟩
  · obtain ⟨v, -, hv⟩ := bfparse_of_not_meetsFormatErrorCondition h
    exact ⟨v, hv⟩
  intro six
  have hsix : exceeds s.build.parseMaxLen str.length = true ↔ six := exceeds_eq_true_iff _ _
  refine ⟨fun h => exec_parse_of_formatError (h.imp bfparse_of_meetsFormatErrorCondition hsix.mpr), fun h => ?_⟩
  obtain ⟨hgood, hlen⟩ := not_or.mp h
  obtain ⟨v, hv0, hv⟩ := bfparse_of_not_meetsFormatErrorCondition hgood
  exact ⟨v, hv0, exec_parse_of_bfparse_ok (Bool.eq_false_iff.mpr (mt hsix.mp hlen)) hv⟩

/-! ### The internal parses (R61) -/

theorem isDigits_binStr {n : ℕ} (hn : 1 ≤ n) (v : ℕ) : IsDigits (binStr n v) :=
  ⟨by rw [← List.length_pos_iff, binStr_length]; exact hn, binStr_isBit n v⟩

theorem isDigits_singleton {c : Byte} (h : isBit c = true) : IsDigits [c] := by simp [IsDigits, h]

theorem isBinaryFraction_digit_point_binStr {c : Byte} (hc : isBit c = true) {n : ℕ} (hn : 1 ≤ n) (v : ℕ) :
    IsBinaryFraction ([c, chDot] ++ binStr n v) :=
  ⟨[], [c], chDot :: binStr n v, .inl rfl, isDigits_singleton hc, .inr ⟨_, isDigits_binStr hn v, rfl⟩, rfl⟩

/-- A digit, a point and the digits of `v`: what the decoder and the table generator parse. -/
theorem bfparse_digit_point_binStr {c : Byte} (hc : isBit c = true) {n v : ℕ} (hn : 1 ≤ n) (hv : v < 2 ^ n) :
    bfparse ([c, chDot] ++ binStr n v) = .ok (digitOf c + (v : ℚ) / 2 ^ n) := by
  have h := bfparse_point (.inl rfl) (isDigits_singleton hc) (isDigits_binStr hn v)
  rw [binaryValue_eq, integerPart_binStr n v hv, binStr_length] at h
  simpa [integerPart] using h

theorem bfparse_one_point (fr : ℕ) (h : fr < 2 ^ 16) :
    bfparse ([chOne, chDot] ++ binStr 16 fr) = .ok (1 + (fr : ℚ) / 2 ^ 16) := by
  simpa [digitOf] using bfparse_digit_point_binStr (c := chOne) rfl (by decide) h

theorem bfparse_zero_point {b i : ℕ} (hb : 1 ≤ b) (h : i < 2 ^ b) :
    bfparse ([chZero, chDot] ++ binStr b i) = .ok ((i : ℚ) / 2 ^ b) := by
  simpa [digitOf, chZero, chOne] using bfparse_digit_point_binStr (c := chZero) rfl hb h

theorem drop_binStr (m n v : ℕ) : (binStr (m + n) v).drop m = binStr n v := by
  induction n generalizing v with
  | zero => exact List.drop_eq_nil_of_le (binStr_length m v).le
  | succ n ih =>
    rw [← Nat.add_assoc, binStr, List.drop_append_of_le_length (by rw [binStr_length]; omega), ih, binStr]

/-- The low-order digits of a number do not depend on what stands above them. -/
theorem binStr_mod (n v : ℕ) : binStr n (v % 2 ^ n) = binStr n v := by
  induction n generalizing v with
  | zero => rfl
  | succ n ih =>
    have hdiv : v % 2 ^ (n + 1) / 2 = v / 2 % 2 ^ n := by rw [pow_succ', Nat.mod_mul_right_div_self]
    have hmod : v % 2 ^ (n + 1) % 2 = v % 2 := Nat.mod_mod_of_dvd v (dvd_pow_self 2 (Nat.succ_ne_zero n))
    simp only [binStr, hdiv, hmod, ih]

/-- The decoder's parse: the digits after the exponent field are those of the fraction field (R64). -/
theorem bfparse_mantissa (n : ℕ) :
    bfparse ([chOne, chDot] ++ (binStr 24 n).drop 8) = .ok (1 + ((n % 2 ^ 16 : ℕ) : ℚ) / 2 ^ 16) := by
  rw [drop_binStr 8 16 n, ← binStr_mod, bfparse_one_point _ (Nat.mod_lt n (by decide))]

/-- The range check is the decoder's only error. -/
theorem decodeFloat24_cases (n : ℕ) :
    decodeFloat24 n = .error .rangeError ∨ ∃ q, decodeFloat24 n = .ok q := by
  unfold decodeFloat24
  split_ifs
  · exact .inl rfl
  · exact .inr ⟨0, rfl⟩
  · simp only [bfparse_mantissa]
    exact .inr ⟨_, rfl⟩

theorem decOutcome_ne_formatError (n : ℕ) : decOutcome n ≠ .error .formatError := by
  unfold decOutcome
  rcases decodeFloat24_cases n with h | ⟨q, h⟩ <;> simp [h]

/-- The table generator's raw entry of an index (R84). -/
theorem rawEntry_eq (mode : TieMode) {b i : ℕ} (d : ℕ) (hb : 1 ≤ b) (hi : i < 2 ^ b) :
    rawEntry mode b d i =
      .ok (decDigits d (roundTie mode ((i : ℚ) / 2 ^ b * ((10 ^ d : ℕ) : ℚ)) % 10 ^ d)) := by
  simp only [rawEntry, bfparse_zero_point hb hi]

/-- The raw table never raises (R61, R88). -/
theorem rawTable_eq (mode : TieMode) {b : ℕ} (d : ℕ) (hb : 1 ≤ b) :
    rawTable mode b d = .ok ((List.range (2 ^ b)).map fun i : ℕ =>
      decDigits d (roundTie mode ((i : ℚ) / 2 ^ b * ((10 ^ d : ℕ) : ℚ)) % 10 ^ d)) :=
  rawEntries_ok _ _ fun _ hi => rawEntry_eq mode d hb (List.mem_range.mp hi)

theorem ptgenOutcome_ne_formatError (bp : BuildParams) (d : ℕ) (p : ℚ) :
    ptgenOutcome bp d p ≠ .error .formatError := by
  unfold ptgenOutcome
  split_ifs with _ _ hb
  case neg =>
    simp only [rawTable_eq bp.tieMode d (show 1 ≤ (bitsRequired d p).toNat by omega)]
    exact nofun
  all_goals exact nofun

theorem responseOf_status_eq_formatError_iff (r : Except ErrorKind Result) :
    (responseOf r).status = .formatError ↔ r = .error .formatError := by
  rcases r with e | v
  · cases e <;> simp [responseOf, ErrorKind.status]
  · simp [responseOf]

/-- `DEC` and `PTGEN` do not end with `FormatError` and do not read the length limit. -/
theorem instrOutcome_of_internal_parse {i : Instr} (h : (∃ n, i = .dec n) ∨ ∃ d p, i = .ptgen d p) (bp : BuildParams) :
    instrOutcome bp i ≠ .error .formatError ∧
      ∀ limit, instrOutcome { bp with parseMaxLen := limit } i = instrOutcome bp i := by
  rcases h with ⟨n, rfl⟩ | ⟨d, p, rfl⟩
  · exact ⟨decOutcome_ne_formatError n, fun _ => rfl⟩
  · exact ⟨ptgenOutcome_ne_formatError bp d p, fun _ => rfl⟩

/-- Settles O22: both strings are digits about a point, and the two commands do not read the length limit. -/
theorem internalParsesNeverRaise : Obligations.InternalParsesNeverRaise := by
  refine ⟨fun fr h => ⟨isBinaryFraction_digit_point_binStr (c := chOne) rfl (by decide) fr, bfparse_one_point fr h⟩,
    fun b i hb h => ⟨isBinaryFraction_digit_point_binStr (c := chZero) rfl hb i, bfparse_zero_point hb h⟩,
    fun s limit i hi => ?_⟩
  obtain ⟨hne, hlimit⟩ := instrOutcome_of_internal_parse hi s.build
  exact ⟨_, mt (responseOf_status_eq_formatError_iff _).mp hne, exec_writes_responseOf i s,
    by rw [exec_writes_responseOf, hlimit]⟩

end Sys2Proof.Machine
end

section
/-! PROOF. The statements of spec/41_decode.md: the range check of `DEC` (R62), the pattern of zero (R63), the value
that the decoder answers (R65) and its sign (R66). -/

namespace Sys2Proof.Machine

/-! ### What `DEC` answers (R62, R64, R65) -/

theorem decodeFloat24_of_le {n : ℕ} (h : 2 ^ 24 ≤ n) : decodeFloat24 n = .error .rangeError := if_pos h

theorem ofNat_ne_zero {n : ℕ} (h0 : n ≠ 0) (h : n < 2 ^ 24) : BitVec.ofNat 24 n ≠ 0#24 := by
  intro e
  have hn : n % 2 ^ 24 = 0 := congrArg BitVec.toNat e
  omega

/-- The decoder's product is R44's: the parser gives one plus the fraction field over `2^16`. -/
theorem decodeFloat24_of_lt {n : ℕ} (h : n < 2 ^ 24) : decodeFloat24 n = .ok (f24val (BitVec.ofNat 24 n)) := by
  rw [decodeFloat24, if_neg (show ¬ 2 ^ Config.wF24 ≤ n from not_le.mpr h)]
  by_cases h0 : n = 0
  · rw [if_pos h0, h0, f24val_zero]
  · have hfrac : fractionField (BitVec.ofNat 24 n) = n % 2 ^ 16 := by
      rw [fractionField_eq, BitVec.toNat_ofNat, Nat.mod_eq_of_lt h]
    rw [if_neg h0, f24val, if_neg (ofNat_ne_zero h0 h), hfrac, Nat.cast_pow]
    simp only [bfparse_mantissa]
    rfl

theorem exec_dec_of_le (s : State) {n : ℕ} (h : 2 ^ 24 ≤ n) :
    exec (.dec n) s = .next { s with resp := some ⟨.rangeError, none⟩ } := by
  rw [exec_dec, decOutcome, decodeFloat24_of_le h]
  rfl

theorem exec_dec_of_lt (s : State) {n : ℕ} (h : n < 2 ^ 24) :
    exec (.dec n) s = .next { s with resp := some ⟨.ok, some (.rat (f24val (BitVec.ofNat 24 n)))⟩ } := by
  rw [exec_dec, decOutcome, decodeFloat24_of_lt h]
  rfl

/-! ### The check of an operand port (R62) -/

/-- A number of `width` bits has a bit from 24 up exactly when it is no 24-bit number. -/
theorem decPortRangeError_iff {width n : ℕ} (h : n < 2 ^ width) : decPortRangeError width n = true ↔ 2 ^ 24 ≤ n := by
  simp only [decPortRangeError, List.any_eq_true, List.mem_range, Bool.and_eq_true, decide_eq_true_eq]
  constructor
  · rintro ⟨j, -, hj, hbit⟩
    exact (Nat.pow_le_pow_right two_pos hj).trans (Nat.ge_two_pow_of_testBit hbit)
  · intro hn
    obtain ⟨j, hj, hbit⟩ := Nat.exists_ge_and_testBit_of_ge_two_pow hn
    have hlt : 2 ^ j < 2 ^ width := (Nat.ge_two_pow_of_testBit hbit).trans_lt h
    exact ⟨j, (Nat.pow_lt_pow_iff_right one_lt_two).mp hlt, hj, hbit⟩

/-- Settles O24: the decoder checks the range first, and the port's check is the same one. -/
theorem decRejectsWidePatterns : Obligations.DecRejectsWidePatterns :=
  ⟨fun s _ h => exec_dec_of_le s h, fun _ _ _ h => decPortRangeError_iff h⟩

/-! ### The pattern of zero (R63) -/

/-- The other words have the magnitude of a pattern, which is positive. -/
theorem f24val_eq_zero_iff (w : Word24) : f24val w = 0 ↔ w = 0#24 := by
  refine ⟨fun h => by_contra fun hw => ?_, fun h => h ▸ f24val_zero⟩
  cases hs : signBit w with
  | false => exact (f24val_pos_of_signBit_false hw hs).ne' h
  | true => exact (f24val_neg_of_signBit_true hs).ne h

theorem f24val_signBitOnly : f24val 0x800000#24 = -(2 : ℚ) ^ (-63 : ℤ) :=
  (f24val_of_signBit_true rfl).trans (congrArg _ patternMagnitude_zero)

/-- Settles O25: zero is a pattern of its own, and the sign bit alone negates the least magnitude. -/
theorem decZeroPatternOnly : Obligations.DecZeroPatternOnly := by
  refine ⟨f24val_eq_zero_iff, fun s => ⟨?_, ?_⟩⟩
  · rw [exec_dec_of_lt s (by decide), f24val_zero]
  · rw [exec_dec_of_lt s (by decide), f24val_signBitOnly]

/-! ### The value and its sign (R44, R65, R66) -/

/-- R44 with the fields read by division. -/
theorem f24val_eq_of_ne_zero {w : Word24} (h : w ≠ 0#24) : f24val w =
    (-1) ^ (w.toNat / 2 ^ 23) * (2 : ℚ) ^ (((w.toNat / 2 ^ 16 % 2 ^ 7 : ℕ) : ℤ) - 63) *
      (1 + ((w.toNat % 2 ^ 16 : ℕ) : ℚ) / 2 ^ 16) := by
  have hsign : (if signBit w then -1 else 1 : ℚ) = (-1) ^ (w.toNat / 2 ^ 23) := by
    have hw := w.isLt
    cases hs : signBit w with
    | false => rw [Nat.div_eq_of_lt ((signBit_eq_false_iff w).mp hs)]; rfl
    | true =>
      have hle := (signBit_eq_true_iff w).mp hs
      have hquot : w.toNat / 2 ^ 23 = 1 := by omega
      rw [hquot, pow_one]; rfl
  rw [f24val, if_neg h, hsign, pow2_eq_zpow, exponentField_eq, fractionField_eq, Nat.cast_pow]
  rfl

/-- Settles O26: the decoder answers `f24val`, whose fields are quotients and remainders of the number. -/
theorem decComputesFormatValue : Obligations.DecComputesFormatValue := by
  intro s n h v
  have hval : f24val (BitVec.ofNat 24 n) = v := by
    by_cases h0 : n = 0
    · exact h0 ▸ f24val_zero.trans (if_pos h0).symm
    · rw [f24val_eq_of_ne_zero (ofNat_ne_zero h0 h), BitVec.toNat_ofNat, Nat.mod_eq_of_lt h]
      exact (if_neg h0).symm
  exact ⟨hval ▸ exec_dec_of_lt s h, hval⟩

theorem signBit_ofNat (n : ℕ) : signBit (BitVec.ofNat 24 n) = n.testBit 23 := by
  rw [signBit, BitVec.getLsbD_ofNat]
  rfl

/-- Settles O27: the sign bit of the word is bit 23 of the number. -/
theorem decResultSign : Obligations.DecResultSign := by
  intro s n h0 h
  refine ⟨_, exec_dec_of_lt s h, ?_⟩
  rw [← signBit_ofNat]
  exact ⟨f24val_neg_of_signBit_true, f24val_pos_of_signBit_false (ofNat_ne_zero h0.ne' h)⟩

end Sys2Proof.Machine
end

section
/-! PROOF. The statements of spec/42_encode.md: the word or the error that `ENC` answers (R67 to R74), the source's two
loops (R69, R72, R80), and what encoding then decoding keeps (R75 to R79). -/

namespace Sys2Proof.Machine

/-! ### The normal form of a number (R69, R71) -/

/-- `|x| = 2^k · (1 + r)` with `0 ≤ r < 1`: the shift `k` of R69 and the remainder `r` of R71. -/
structure IsNormalForm (x : ℚ) (k : ℤ) (r : ℚ) : Prop where
  nonneg : 0 ≤ r
  lt_one : r < 1
  abs_eq : |x| = (2 : ℚ) ^ k * (1 + r)

theorem two_zpow_lt_iff {j k : ℤ} : (2 : ℚ) ^ j < 2 ^ k ↔ j < k := zpow_lt_zpow_iff_right₀ one_lt_two

theorem isNormalForm_of_bracket {x : ℚ} {k : ℤ} (hlo : (2 : ℚ) ^ k ≤ |x|) (hhi : |x| < (2 : ℚ) ^ (k + 1)) :
    IsNormalForm x k (|x| / 2 ^ k - 1) := by
  have hpos : (0 : ℚ) < 2 ^ k := by positivity
  rw [zpow_add_one₀ two_ne_zero, mul_comm] at hhi
  refine ⟨sub_nonneg.mpr ((one_le_div hpos).mpr hlo), ?_, ?_⟩
  · linarith [(div_lt_iff₀ hpos).mpr hhi]
  · field_simp
    ring

theorem exists_isNormalForm {x : ℚ} (hx : x ≠ 0) : ∃ k r, IsNormalForm x k r := by
  obtain ⟨hlo, hhi⟩ := floorLog2_bounds |x| (abs_pos.mpr hx)
  exact ⟨_, _, isNormalForm_of_bracket hlo hhi⟩

/-- A pattern's own fields are the normal form of its value. -/
theorem isNormalForm_f24val {w : Word24} (h : w ≠ 0#24) :
    IsNormalForm (f24val w) ((exponentField w : ℤ) - 63) ((fractionField w : ℚ) / 2 ^ 16) := by
  have hlt : (fractionField w : ℚ) < 2 ^ 16 := by exact_mod_cast fractionField_lt w
  refine ⟨by positivity, (div_lt_one (by positivity)).mpr hlt, ?_⟩
  have hval := f24val_packWord (signBit w) (exponentField_lt w) (fractionField_lt w) (by rwa [packWord_fields])
  rw [packWord_fields] at hval
  rw [hval, abs_mul, abs_of_pos (a := (2 : ℚ) ^ _ * _) (by positivity)]
  cases signBit w <;> simp

namespace IsNormalForm

variable {x r : ℚ} {k : ℤ}

theorem le_abs (h : IsNormalForm x k r) : (2 : ℚ) ^ k ≤ |x| := by
  rw [h.abs_eq]
  exact le_mul_of_one_le_right (by positivity) (by linarith [h.nonneg])

theorem abs_lt (h : IsNormalForm x k r) : |x| < (2 : ℚ) ^ (k + 1) := by
  rw [h.abs_eq, zpow_add_one₀ two_ne_zero]
  exact mul_lt_mul_of_pos_left (by linarith [h.lt_one]) (by positivity)

theorem ne_zero (h : IsNormalForm x k r) : x ≠ 0 :=
  abs_pos.mp (lt_of_lt_of_le (by positivity) h.le_abs)

theorem neg (h : IsNormalForm x k r) : IsNormalForm (-x) k r := ⟨h.nonneg, h.lt_one, by rw [abs_neg, h.abs_eq]⟩

/-- The shift is determined by the number. -/
theorem shift_eq (h : IsNormalForm x k r) {j : ℤ} (hlo : (2 : ℚ) ^ j ≤ |x|) (hhi : |x| < (2 : ℚ) ^ (j + 1)) :
    j = k :=
  zpow_bracket_unique hlo hhi h.le_abs h.abs_lt

theorem div_shift (h : IsNormalForm x k r) : |x| / 2 ^ k = 1 + r := by
  rw [h.abs_eq, mul_div_cancel_left₀ _ (by positivity)]

theorem two_zpow_le_abs_iff (h : IsNormalForm x k r) (j : ℤ) : (2 : ℚ) ^ j ≤ |x| ↔ j ≤ k := by
  constructor
  · exact fun hj => Int.lt_add_one_iff.mp (two_zpow_lt_iff.mp (hj.trans_lt h.abs_lt))
  · exact fun hj => (zpow_le_zpow_right₀ one_le_two hj).trans h.le_abs

theorem encInRange_iff (h : IsNormalForm x k r) : EncInRange x ↔ -63 ≤ k ∧ k ≤ 64 := by
  rw [EncInRange, or_iff_right h.ne_zero, h.two_zpow_le_abs_iff, ← not_le, h.two_zpow_le_abs_iff]
  exact and_congr_right' (by omega)

/-- The band of R75 is the bottom of the range with no fraction bit left. -/
theorem inZeroAliasBand_iff (h : IsNormalForm x k r) :
    InZeroAliasBand x ↔ 0 ≤ x ∧ k = -63 ∧ r < (2 : ℚ) ^ (-16 : ℤ) := by
  have hpos : (0 : ℚ) < 2 ^ (-63 : ℤ) := by positivity
  constructor
  · rintro ⟨hlo, hhi⟩
    have hx : 0 ≤ x := hpos.le.trans hlo
    have habs := h.abs_eq
    rw [← abs_of_nonneg hx] at hlo hhi
    obtain rfl : -63 = k := h.shift_eq hlo (hhi.trans (by norm_num))
    rw [habs, mul_lt_mul_iff_right₀ hpos] at hhi
    exact ⟨hx, rfl, by linarith⟩
  · rintro ⟨hx, rfl, hr⟩
    rw [InZeroAliasBand, ← abs_of_nonneg hx]
    refine ⟨h.le_abs, ?_⟩
    rw [h.abs_eq, mul_lt_mul_iff_right₀ hpos]
    linarith

end IsNormalForm

/-- A shift in the range of R70 is an exponent field with the bias taken off. -/
theorem exists_exponentField {k : ℤ} (hk : -63 ≤ k ∧ k ≤ 64) : ∃ e : ℕ, e < 2 ^ 7 ∧ k = (e : ℤ) - 63 :=
  ⟨(k + 63).toNat, by omega, by omega⟩

theorem exists_isNormalForm_of_encInRange {x : ℚ} (hx : x ≠ 0) (h : EncInRange x) :
    ∃ (e : ℕ) (r : ℚ), e < 2 ^ 7 ∧ IsNormalForm x ((e : ℤ) - 63) r := by
  obtain ⟨k, r, hn⟩ := exists_isNormalForm hx
  obtain ⟨e, he, rfl⟩ := exists_exponentField (hn.encInRange_iff.mp h)
  exact ⟨e, r, he, hn⟩

/-! ### Truncation to sixteen bits (R72) -/

theorem trunc16_eq_natFloor (r : ℚ) : trunc16 r = ⌊r * 2 ^ 16⌋₊ := by
  rw [trunc16_eq, Int.floor_toNat]

theorem trunc16_lt {r : ℚ} (h : r < 1) : trunc16 r < 2 ^ 16 := by
  rw [trunc16_eq_natFloor, Nat.floor_lt' (by norm_num)]
  push_cast
  linarith

theorem trunc16_mono {q r : ℚ} (h : q ≤ r) : trunc16 q ≤ trunc16 r := by
  rw [trunc16_eq_natFloor, trunc16_eq_natFloor]
  exact Nat.floor_mono (by linarith)

/-- A fraction of sixteen bits loses nothing. -/
theorem trunc16_div (n : ℕ) : trunc16 ((n : ℚ) / 2 ^ 16) = n := by
  rw [trunc16_eq_natFloor, div_mul_cancel₀ _ (by norm_num), Nat.floor_natCast]

theorem trunc16_div_le {r : ℚ} (h : 0 ≤ r) : (trunc16 r : ℚ) / 2 ^ 16 ≤ r := by
  rw [div_le_iff₀ (by norm_num), trunc16_eq_natFloor]
  exact Nat.floor_le (by positivity)

theorem lt_trunc16_add_one_div (r : ℚ) : r < ((trunc16 r : ℚ) + 1) / 2 ^ 16 := by
  rw [lt_div_iff₀ (by norm_num), trunc16_eq_natFloor]
  exact Nat.lt_floor_add_one _

theorem trunc16_eq_zero_iff (r : ℚ) : trunc16 r = 0 ↔ r < (2 : ℚ) ^ (-16 : ℤ) := by
  rw [trunc16_eq_natFloor, Nat.floor_eq_zero, ← lt_div_iff₀ (by norm_num)]
  norm_num

/-! ### What `ENC` answers (R67 to R74) -/

theorem exponentOutOfRange_eq (k : ℤ) : exponentOutOfRange (k + 63) = decide (k < -63 ∨ 64 < k) := by
  rw [exponentOutOfRange, ← Bool.decide_or]
  refine decide_eq_decide.mpr ?_
  simp only [Config.expMin, Config.expMax]
  omega

theorem encodeFloat24_zero : encodeFloat24 0 = .ok 0#24 := if_pos rfl

/-- R74 on a number in normal form. -/
theorem encodeFloat24_eq {x r : ℚ} {k : ℤ} (h : IsNormalForm x k r) : encodeFloat24 x =
    if exponentOutOfRange (k + 63) then .error .rangeError
    else .ok (packWord (decide (x < 0)) (k + 63).toNat (trunc16 r)) := by
  have hshift : floorLog2 |x| = k := floorLog2_eq h.le_abs h.abs_lt
  simp only [encodeFloat24, if_neg h.ne_zero, magnitude_eq_abs, hshift, pow2_eq_zpow, h.div_shift,
    add_sub_cancel_left]
  rfl

theorem encodeFloat24_of_out {x r : ℚ} {k : ℤ} (h : IsNormalForm x k r) (hk : k < -63 ∨ 64 < k) :
    encodeFloat24 x = .error .rangeError := by
  rw [encodeFloat24_eq h, exponentOutOfRange_eq, decide_eq_true hk, if_pos rfl]

theorem encodeFloat24_of_exponent {x r : ℚ} {e : ℕ} (he : e < 2 ^ 7) (h : IsNormalForm x ((e : ℤ) - 63) r) :
    encodeFloat24 x = .ok (packWord (decide (x < 0)) e (trunc16 r)) := by
  have hin : ¬ ((e : ℤ) - 63 < -63 ∨ 64 < (e : ℤ) - 63) := by omega
  rw [encodeFloat24_eq h, exponentOutOfRange_eq, decide_eq_false hin, sub_add_cancel, Int.toNat_natCast]
  rfl

theorem exec_enc_of_ok (s : State) {x : ℚ} {w : Word24} (h : encodeFloat24 x = .ok w) :
    exec (.enc x) s = .next { s with resp := some ⟨.ok, some (.word24 w)⟩ } := by
  rw [exec_enc, encOutcome, h]
  rfl

theorem exec_enc_of_rangeError (s : State) {x : ℚ} (h : encodeFloat24 x = .error .rangeError) :
    exec (.enc x) s = .next { s with resp := some ⟨.rangeError, none⟩ } := by
  rw [exec_enc, encOutcome, h]
  rfl

theorem exec_enc_zero (s : State) :
    exec (.enc 0) s = .next { s with resp := some ⟨.ok, some (.word24 0x000000#24)⟩ } :=
  exec_enc_of_ok s encodeFloat24_zero

theorem exec_dec_toNat (s : State) (w : Word24) :
    exec (.dec w.toNat) s = .next { s with resp := some ⟨.ok, some (.rat (f24val w))⟩ } := by
  rw [exec_dec_of_lt s w.isLt, BitVec.ofNat_toNat, BitVec.setWidth_eq]

/-! ### Encode inverts decode (R77) -/

theorem f24val_neg_iff (w : Word24) : f24val w < 0 ↔ signBit w = true := by
  refine ⟨fun h => ?_, f24val_neg_of_signBit_true⟩
  have hw : w ≠ 0#24 := by rintro rfl; exact h.ne f24val_zero
  by_contra hs
  exact h.not_gt (f24val_pos_of_signBit_false hw (by simpa using hs))

theorem encodeFloat24_f24val (w : Word24) : encodeFloat24 (f24val w) = .ok w := by
  by_cases h : w = 0#24
  · rw [h, f24val_zero, encodeFloat24_zero]
  · have hsign : decide (f24val w < 0) = signBit w := by simp [f24val_neg_iff]
    rw [encodeFloat24_of_exponent (exponentField_lt w) (isNormalForm_f24val h), hsign, trunc16_div, packWord_fields]

/-- Settles O38: a word's fields are the normal form of its value, whose remainder has sixteen bits, so the encoder
packs the same fields again. -/
theorem encodeInvertsDecode : Obligations.EncodeInvertsDecode :=
  fun s w => ⟨exec_dec_toNat s w, exec_enc_of_ok s (encodeFloat24_f24val w)⟩

/-! ### The packed word and the range (R67, R70, R73, R74) -/

/-- Settles O31: `−0.0` is read as the rational 0, which is encoded before any sign is looked at. -/
theorem encZeroGivesZeroPattern : Obligations.EncZeroGivesZeroPattern :=
  ⟨by decide +kernel, fun s _ _ _ hx => hx ▸ exec_enc_zero s⟩

/-- Settles O30: the given exponent makes the normal form, whose fields do not overlap. -/
theorem encPacksTruncatedMantissa : Obligations.EncPacksTruncatedMantissa := by
  refine ⟨exec_enc_zero, fun s x k _ hlo hhi => ?_⟩
  have hn := isNormalForm_of_bracket hlo hhi
  refine ⟨fun hk => exec_enc_of_rangeError s (encodeFloat24_of_out hn (by omega)), fun hk hk' => ?_⟩
  obtain ⟨e, he, rfl⟩ := exists_exponentField (k := k) (by omega)
  refine ⟨_, exec_enc_of_ok s (encodeFloat24_of_exponent he hn), ?_⟩
  rw [packWord_toNat _ he (trunc16_lt hn.lt_one), ← trunc16_cast hn.nonneg]
  by_cases hx : x < 0 <;> simp [hx]

/-- Settles O32: the range is that of the shifts an exponent field can hold. -/
theorem encRangeErrorExactly : Obligations.EncRangeErrorExactly := by
  intro s x
  by_cases hx : x = 0
  · subst hx
    exact ⟨fun h => absurd (.inl rfl) h, fun _ => ⟨_, exec_enc_zero s, fun h => absurd rfl h⟩⟩
  constructor
  · intro hout
    obtain ⟨k, r, hn⟩ := exists_isNormalForm hx
    rw [hn.encInRange_iff] at hout
    exact exec_enc_of_rangeError s (encodeFloat24_of_out hn (by omega))
  · intro hin
    obtain ⟨e, r, he, hn⟩ := exists_isNormalForm_of_encInRange hx hin
    refine ⟨_, exec_enc_of_ok s (encodeFloat24_of_exponent he hn), fun _ => ?_⟩
    rw [exponentField_packWord _ he (trunc16_lt hn.lt_one)]
    exact ⟨hn.le_abs, hn.abs_lt⟩

/-! ### The normalization loop (R69) -/

/-- The shift that `n` iterations reach on the way to `k`: one step nearer in each, and no further than `k`. -/
def reachedShift (n : ℕ) (k : ℤ) : ℤ := max (-n) (min k n)

theorem reachedShift_of_natAbs_le {n : ℕ} {k : ℤ} (h : k.natAbs ≤ n) : reachedShift n k = k := by
  unfold reachedShift
  omega

theorem reachedShift_succ_of_pos (n : ℕ) {k : ℤ} (h : 0 < k) :
    reachedShift (n + 1) k = reachedShift n (k - 1) + 1 := by
  unfold reachedShift
  omega

theorem reachedShift_succ_of_neg (n : ℕ) {k : ℤ} (h : k < 0) :
    reachedShift (n + 1) k = reachedShift n (k + 1) - 1 := by
  unfold reachedShift
  omega

/-- Halving takes one off the shift and keeps the remainder. -/
theorem IsNormalForm.half {x r : ℚ} {k : ℤ} (h : IsNormalForm x k r) : IsNormalForm (x / 2) (k - 1) r := by
  refine ⟨h.nonneg, h.lt_one, ?_⟩
  rw [abs_div, h.abs_eq, abs_two, zpow_sub_one₀ two_ne_zero]
  ring

theorem IsNormalForm.double {x r : ℚ} {k : ℤ} (h : IsNormalForm x k r) : IsNormalForm (x * 2) (k + 1) r := by
  refine ⟨h.nonneg, h.lt_one, ?_⟩
  rw [abs_mul, h.abs_eq, abs_two, zpow_add_one₀ two_ne_zero]
  ring

/-- Each iteration moves one factor of two from the magnitude to the shift, until the magnitude is in `[1, 2)`. -/
theorem normalizeLoop_eq (n : ℕ) {a r : ℚ} {k : ℤ} (ha : 0 < a) (h : IsNormalForm a k r) (shift : ℤ) :
    normalizeLoop n a shift = (a / 2 ^ reachedShift n k, shift + reachedShift n k) := by
  induction n generalizing a k shift with
  | zero =>
    have hzero : reachedShift 0 k = 0 := by unfold reachedShift; omega
    rw [normalizeLoop, hzero, zpow_zero, div_one, add_zero]
  | succ n ih =>
    have htwo : 2 ≤ a ↔ 1 ≤ k := by simpa [abs_of_pos ha] using h.two_zpow_le_abs_iff 1
    have hone : 1 ≤ a ↔ 0 ≤ k := by simpa [abs_of_pos ha] using h.two_zpow_le_abs_iff 0
    rw [normalizeLoop]
    split_ifs with h2 h1
    · rw [ih (by positivity) h.half, reachedShift_succ_of_pos n (htwo.mp h2), zpow_add_one₀ two_ne_zero, div_div]
      ring_nf
    · have hk : k < 0 := by rwa [← not_le, ← hone, not_le]
      rw [ih (by positivity) h.double, reachedShift_succ_of_neg n hk, zpow_sub_one₀ two_ne_zero]
      congr 1
      · field_simp
      · ring
    · obtain rfl : k = 0 := by
        have hlt := mt htwo.mpr h2
        have hge := hone.mp (not_lt.mp h1)
        omega
      rw [reachedShift_of_natAbs_le (Nat.zero_le _), zpow_zero, div_one, add_zero]

theorem normalizeLoop_of_natAbs_le {n : ℕ} {a r : ℚ} {k : ℤ} (ha : 0 < a) (h : IsNormalForm a k r)
    (hk : k.natAbs ≤ n) : normalizeLoop n a 0 = (a / 2 ^ k, k) := by
  rw [normalizeLoop_eq n ha h, reachedShift_of_natAbs_le hk, zero_add]

/-- Sixty-five iterations take the shift out of the range whenever the whole loop would. -/
theorem exponentOutOfRange_normalizeLoop {a r : ℚ} {k : ℤ} (ha : 0 < a) (h : IsNormalForm a k r)
    (hk : k < -63 ∨ 64 < k) : exponentOutOfRange ((normalizeLoop 65 a 0).2 + 63) = true := by
  rw [normalizeLoop_eq 65 ha h, exponentOutOfRange_eq, decide_eq_true_eq, reachedShift]
  dsimp only
  omega

/-- Settles O33: the loop moves the shift one step nearer to `k` in each iteration. -/
theorem normalizationLoopFindsShift : Obligations.NormalizationLoopFindsShift := by
  refine fun a ha => ⟨⟨_, floorLog2_bounds a ha⟩, fun k hlo hhi => ?_⟩
  have habs : |a| = a := abs_of_pos ha
  have hn : IsNormalForm a k (a / 2 ^ k - 1) := by
    simpa only [habs] using isNormalForm_of_bracket (x := a) (habs.symm ▸ hlo) (habs.symm ▸ hhi)
  have hr := hn.nonneg
  have hr' := hn.lt_one
  exact ⟨floorLog2_eq hlo hhi, by linarith, by linarith, fun n => normalizeLoop_of_natAbs_le ha hn,
    exponentOutOfRange_normalizeLoop ha hn⟩

/-! ### The fraction loop (R72) -/

/-- With `r` below `factor`, the loop appends the first `n` binary digits of `r / factor` to those it has. -/
theorem fractionLoop_eq (n : ℕ) {factor r : ℚ} (hr : 0 ≤ r) (hlt : r < factor) (fr : ℕ) :
    fractionLoop n factor r fr = fr * 2 ^ n + ⌊r / factor * 2 ^ n⌋₊ := by
  have hpos : 0 < factor := hr.trans_lt hlt
  induction n generalizing factor r fr with
  | zero =>
    have hfloor : ⌊r / factor⌋₊ = 0 := Nat.floor_eq_zero.mpr ((div_lt_one hpos).mpr hlt)
    simp [fractionLoop, hfloor]
  | succ n ih =>
    rw [fractionLoop]
    split_ifs with hbit
    · have hscale : r / factor * 2 ^ (n + 1) = (r - factor / 2) / (factor / 2) * 2 ^ n + (2 ^ n : ℕ) := by
        push_cast
        field_simp
        ring
      have hrest : 0 ≤ r - factor / 2 := by linarith
      rw [ih hrest (by linarith) _ (by linarith), hscale, Nat.floor_add_natCast (by positivity)]
      ring
    · have hscale : r / factor * 2 ^ (n + 1) = r / (factor / 2) * 2 ^ n := by
        field_simp
        ring
      rw [ih hr (not_le.mp hbit) _ (by linarith), hscale]
      ring

theorem fractionLoop_one (n : ℕ) {r : ℚ} (hr : 0 ≤ r) (hlt : r < 1) : fractionLoop n 1 r 0 = ⌊r * 2 ^ n⌋₊ := by
  simp [fractionLoop_eq n hr hlt]

theorem fractionLoop_sixteen {r : ℚ} (hr : 0 ≤ r) (hlt : r < 1) : fractionLoop 16 1 r 0 = trunc16 r := by
  rw [fractionLoop_one 16 hr hlt, trunc16_eq_natFloor]

/-- Settles O34: `n` iterations give `floor(r · 2^n)`, so dropping low-order bits is stopping earlier. -/
theorem fractionLoopTruncates : Obligations.FractionLoopTruncates := by
  intro r hr hlt
  refine ⟨?_, (fractionLoop_sixteen hr hlt).symm, ?_, ?_, fun k hk => ?_⟩
  · rw [fractionLoop_sixteen hr hlt, trunc16_cast hr]
  · rw [fractionLoop_sixteen hr hlt]
    exact trunc16_div_le hr
  · rw [fractionLoop_sixteen hr hlt]
    exact lt_trunc16_add_one_div r
  · have hsplit : r * 2 ^ 16 / ((2 ^ (16 - k) : ℕ) : ℚ) = r * 2 ^ k := by
      rw [← Nat.sub_add_cancel hk, pow_add, Nat.sub_add_cancel hk]
      push_cast
      field_simp
    rw [fractionLoop_one 16 hr hlt, fractionLoop_one k hr hlt, ← Nat.floor_div_natCast, hsplit]

/-! ### One encoder (R80) -/

theorem encodeByLoops_eq_encodeFloat24 (x : ℚ) : encodeByLoops x = encodeFloat24 x := by
  by_cases hx : x = 0
  · subst hx
    rfl
  obtain ⟨k, r, h⟩ := exists_isNormalForm hx
  have habs : IsNormalForm |x| k r := ⟨h.nonneg, h.lt_one, by rw [abs_abs, h.abs_eq]⟩
  have hbias : (Config.bias : ℤ) = 63 := rfl
  rw [encodeFloat24_eq h]
  simp only [encodeByLoops, if_neg hx, magnitude_eq_abs, hbias]
  by_cases hk : k < -63 ∨ 64 < k
  · have hout : exponentOutOfRange (k + 63) = true := by rw [exponentOutOfRange_eq, decide_eq_true hk]
    rw [exponentOutOfRange_normalizeLoop (abs_pos.mpr hx) habs hk, hout, if_pos rfl, if_pos rfl]
  · rw [normalizeLoop_of_natAbs_le (abs_pos.mpr hx) habs (by omega), h.div_shift, add_sub_cancel_left,
      fractionLoop_sixteen h.nonneg h.lt_one]

/-- Settles O35: both encoders pack the shift and the truncated remainder of the same normal form. -/
theorem loopEncoderIsDirectEncoder : Obligations.LoopEncoderIsDirectEncoder := by
  intro s x
  rw [encodeByLoops_eq_encodeFloat24, exec_enc, encOutcome]
  cases encodeFloat24 x <;> rfl

/-! ### The band that encodes to the zero pattern (R75) -/

theorem encodeFloat24_of_inZeroAliasBand {x : ℚ} (h : InZeroAliasBand x) :
    encodeFloat24 x = .ok 0x000000#24 ∧ encodeFloat24 (-x) = .ok 0x800000#24 := by
  have hx : 0 < x := lt_of_lt_of_le (by positivity) h.1
  obtain ⟨k, r, hn⟩ := exists_isNormalForm hx.ne'
  obtain ⟨-, rfl, hr⟩ := hn.inZeroAliasBand_iff.mp h
  have hzero := (trunc16_eq_zero_iff r).mpr hr
  rw [encodeFloat24_of_exponent (e := 0) (by decide) hn, encodeFloat24_of_exponent (e := 0) (by decide) hn.neg, hzero,
    decide_eq_false hx.not_gt, decide_eq_true (neg_neg_of_pos hx)]
  exact ⟨rfl, rfl⟩

/-- Settles O36: in the band every field is zero, and the sign bit alone tells the two words apart. -/
theorem zeroAliasBandEncodesToZero : Obligations.ZeroAliasBandEncodesToZero := by
  intro s x h
  obtain ⟨hpos, hneg⟩ := encodeFloat24_of_inZeroAliasBand h
  obtain ⟨-, hdec⟩ := decZeroPatternOnly
  obtain ⟨hdec0, hdec1⟩ := hdec s
  exact ⟨exec_enc_of_ok s hpos, hdec0, exec_enc_of_ok s hneg, hdec1⟩

/-! ### The truncation bound (R76) -/

/-- Outside the band the decoded word keeps the sign and the shift, and has the truncated remainder. -/
theorem f24val_encoded {x r : ℚ} {e : ℕ} (he : e < 2 ^ 7) (h : IsNormalForm x ((e : ℤ) - 63) r)
    (hband : ¬ InZeroAliasBand x) : f24val (packWord (decide (x < 0)) e (trunc16 r)) =
      (if x < 0 then -1 else 1) * ((2 : ℚ) ^ ((e : ℤ) - 63) * (1 + (trunc16 r : ℚ) / 2 ^ 16)) := by
  have hf := trunc16_lt h.lt_one
  rw [f24val_packWord _ he hf (packWord_ne_zero he hf ?_)]
  · simp only [decide_eq_true_eq]
  · by_contra hall
    simp only [decide_eq_true_eq, not_or, not_not, not_lt] at hall
    obtain ⟨hx, rfl, hfr⟩ := hall
    exact hband (h.inZeroAliasBand_iff.mpr ⟨hx, rfl, (trunc16_eq_zero_iff r).mp hfr⟩)

/-- Truncating a magnitude `p · (1 + r)` drops less than one unit of the sixteenth bit. -/
theorem truncation_bounds {p r : ℚ} (hp : 0 < p) (hr : 0 ≤ r) :
    p * (1 + (trunc16 r : ℚ) / 2 ^ 16) ≤ p * (1 + r) ∧
      p * (1 + r) - p * (1 + (trunc16 r : ℚ) / 2 ^ 16) < p * (2 : ℚ) ^ (-16 : ℤ) := by
  have hlo := trunc16_div_le hr
  have hhi := lt_trunc16_add_one_div r
  have hunit : ((trunc16 r : ℚ) + 1) / 2 ^ 16 = (trunc16 r : ℚ) / 2 ^ 16 + (2 : ℚ) ^ (-16 : ℤ) := by
    norm_num
    ring
  rw [hunit] at hhi
  refine ⟨mul_le_mul_of_nonneg_left (by linarith) hp.le, ?_⟩
  rw [← mul_sub]
  exact mul_lt_mul_of_pos_left (by linarith) hp

/-- A number with the sign of `x` and a magnitude `m` of at most `|x|` is `|x| - m` away from `x`. -/
theorem signed_magnitude_spec {x m : ℚ} (hx : x ≠ 0) (hm : 0 < m) (hle : m ≤ |x|) {y : ℚ}
    (hy : y = (if x < 0 then -1 else 1) * m) :
    (0 < y ↔ 0 < x) ∧ (y < 0 ↔ x < 0) ∧ |y| = m ∧ |y - x| = |x| - m := by
  rcases hx.lt_or_gt with hneg | hpos
  · rw [if_pos hneg, neg_one_mul] at hy
    rw [abs_of_neg hneg] at hle ⊢
    subst hy
    refine ⟨iff_of_false (by linarith) hneg.not_gt, iff_of_true (by linarith) hneg, ?_, ?_⟩
    · rw [abs_neg, abs_of_pos hm]
    · rw [abs_of_nonneg (by linarith)]
      ring
  · rw [if_neg hpos.not_gt, one_mul] at hy
    rw [abs_of_pos hpos] at hle ⊢
    subst hy
    refine ⟨iff_of_true hm hpos, iff_of_false hm.not_gt hpos.not_gt, abs_of_pos hm, ?_⟩
    rw [abs_of_nonpos (by linarith)]
    ring

/-- Settles O37: outside the band only the remainder is truncated, and the sign and the shift are kept. -/
theorem roundTripTruncationBound : Obligations.RoundTripTruncationBound := by
  intro s x hin
  by_cases hx : x = 0
  · subst hx
    refine ⟨0#24, _, exec_enc_zero s, exec_dec_toNat s _, rfl, fun _ => f24val_zero, fun _ => ?_⟩
    rw [f24val_zero]
    refine ⟨Iff.rfl, Iff.rfl, le_rfl, fun h => absurd rfl h, fun k hk => absurd hk ?_⟩
    rw [abs_zero, not_le]
    positivity
  by_cases hband : InZeroAliasBand x
  · exact ⟨0#24, _, exec_enc_of_ok s (encodeFloat24_of_inZeroAliasBand hband).1, exec_dec_toNat s _, rfl,
      fun _ => f24val_zero, fun h => absurd hband h⟩
  obtain ⟨e, r, he, hn⟩ := exists_isNormalForm_of_encInRange hx hin
  refine ⟨_, _, exec_enc_of_ok s (encodeFloat24_of_exponent he hn), exec_dec_toNat s _, rfl,
    fun h => absurd h hband, fun _ => ?_⟩
  obtain ⟨hle, hgap⟩ := truncation_bounds (p := (2 : ℚ) ^ ((e : ℤ) - 63)) (by positivity) hn.nonneg
  rw [← hn.abs_eq] at hle hgap
  obtain ⟨hpos, hneg, habs, hdiff⟩ := signed_magnitude_spec hx (by positivity) hle (f24val_encoded he hn hband)
  have hunit : (2 : ℚ) ^ ((e : ℤ) - 63) * 2 ^ (-16 : ℤ) ≤ |x| * 2 ^ (-16 : ℤ) :=
    mul_le_mul_of_nonneg_right hn.le_abs (by positivity)
  rw [habs, hdiff]
  refine ⟨hpos, hneg, hle, fun _ => ?_, fun k hlo hhi => ?_⟩
  · rw [div_lt_iff₀' (abs_pos.mpr hx)]
    exact hgap.trans_le hunit
  · obtain rfl := hn.shift_eq hlo hhi
    exact ⟨hgap, hunit⟩

/-! ### Monotonicity and sign symmetry (R78, R79) -/

/-- Magnitudes compare as the pairs of shift and remainder do. -/
theorem IsNormalForm.lex_of_abs_le {x y q r : ℚ} {j k : ℤ} (hx : IsNormalForm x j q) (hy : IsNormalForm y k r)
    (h : |x| ≤ |y|) : j < k ∨ j = k ∧ q ≤ r := by
  have hjk : j ≤ k := (hy.two_zpow_le_abs_iff j).mp (hx.le_abs.trans h)
  refine hjk.lt_or_eq.imp_right ?_
  rintro rfl
  rw [hx.abs_eq, hy.abs_eq, mul_le_mul_iff_right₀ (by positivity)] at h
  exact ⟨rfl, by linarith⟩

/-- Below one unit of the sixteenth bit nothing of the remainder is left. -/
theorem encodeFloat24_one_add {r : ℚ} (hr : 0 ≤ r) (hlt : r < (2 : ℚ) ^ (-16 : ℤ)) :
    encodeFloat24 (1 + r) = .ok 0x3F0000#24 := by
  have hone : r < 1 := hlt.trans (by norm_num)
  have hn : IsNormalForm (1 + r) ((63 : ℕ) - 63) r := ⟨hr, hone, by rw [abs_of_pos (by linarith)]; simp⟩
  rw [encodeFloat24_of_exponent (by decide) hn, (trunc16_eq_zero_iff r).mpr hlt, decide_eq_false (by linarith)]
  rfl

/-- Settles O39: the shift and the truncated remainder order the words as they order the magnitudes. -/
theorem encIsMonotone : Obligations.EncIsMonotone := by
  refine ⟨fun s a b ha hab hina hinb => ?_, fun s => ⟨?_, ?_⟩⟩
  · have hb := ha.trans hab
    obtain ⟨i, q, hi, hna⟩ := exists_isNormalForm_of_encInRange ha.ne' hina
    obtain ⟨j, r, hj, hnb⟩ := exists_isNormalForm_of_encInRange hb.ne' hinb
    have hq := trunc16_lt hna.lt_one
    refine ⟨_, _, exec_enc_of_ok s (encodeFloat24_of_exponent hi hna),
      exec_enc_of_ok s (encodeFloat24_of_exponent hj hnb), ?_⟩
    rw [packWord_toNat _ hi hq, packWord_toNat _ hj (trunc16_lt hnb.lt_one), decide_eq_false ha.not_gt,
      decide_eq_false hb.not_gt]
    rcases hna.lex_of_abs_le hnb (abs_le_abs_of_nonneg ha.le hab.le) with hlt | ⟨heq, hqr⟩
    · omega
    · have hfr := trunc16_mono hqr
      omega
  · exact exec_enc_of_ok s (add_zero (1 : ℚ) ▸ encodeFloat24_one_add le_rfl (by positivity))
  · exact exec_enc_of_ok s (encodeFloat24_one_add (by positivity) (two_zpow_lt_iff.mpr (by decide)))

theorem packWord_or_signBit (e fr : ℕ) : packWord false e fr ||| 0x800000#24 = packWord true e fr := by
  have hor : 0 <<< 23 ||| e <<< 16 ||| fr ||| 2 ^ 23 = 1 <<< 23 ||| e <<< 16 ||| fr := by
    rw [Nat.zero_shiftLeft, Nat.zero_or, Nat.or_comm, ← Nat.or_assoc, Nat.one_shiftLeft]
  exact (BitVec.ofNat_or ..).symm.trans (congrArg (BitVec.ofNat 24) hor)

/-- Settles O40: the exponent and the fraction depend on the magnitude alone. -/
theorem encSignSymmetry : Obligations.EncSignSymmetry := by
  refine ⟨fun s x hx hin => ?_, fun s => ?_⟩
  · obtain ⟨e, r, he, hn⟩ := exists_isNormalForm_of_encInRange hx.ne' hin
    refine ⟨_, exec_enc_of_ok s (encodeFloat24_of_exponent he hn), ?_⟩
    rw [exec_enc_of_ok s (encodeFloat24_of_exponent he hn.neg), decide_eq_false hx.not_gt,
      decide_eq_true (neg_neg_of_pos hx), packWord_or_signBit]
  · have hband : InZeroAliasBand ((2 : ℚ) ^ (-63 : ℤ)) := ⟨le_rfl, by norm_num⟩
    obtain ⟨hpos, hneg⟩ := encodeFloat24_of_inZeroAliasBand hband
    exact ⟨exec_enc_of_ok s hpos, exec_enc_of_ok s hneg, f24val_zero, f24val_signBitOnly⟩

end Sys2Proof.Machine
end

section
/-! PROOF. The statements of spec/43_precision_table.md: the bits a table needs (R81), the domain checks of `PTGEN`
(R83), the rounded entries, their ties and their correction (R84 to R87), and the answers of `PTGEN` and `FRAC2D`
(R88, R89). -/

namespace Sys2Proof.Machine

/-! ### Bits required (R81, R83) -/

theorem bitsRequired_le_iff (d : ℕ) {p : ℚ} (hp : 0 < p) (n : ℤ) :
    bitsRequired d p ≤ n ↔ (2 : ℚ) ^ (-n) ≤ p ^ d := by
  obtain ⟨hlo, hhi⟩ := floorLog2_bounds (p ^ d) (pow_pos hp d)
  rw [bitsRequired, neg_le]
  constructor
  · exact fun h => (zpow_le_zpow_right₀ one_le_two h).trans hlo
  · exact fun h => Int.lt_add_one_iff.mp (two_zpow_lt_iff.mp (h.trans_lt hhi))

/-- Settles O43: an integer bounds `bitsRequired` from above exactly when it has the property. -/
theorem bitsRequiredIsLeast : Obligations.BitsRequiredIsLeast :=
  ⟨fun d _ _ hp => ⟨(bitsRequired_le_iff d hp _).mp le_rfl, fun n => (bitsRequired_le_iff d hp n).mpr⟩,
    by decide +kernel⟩

theorem bitsRequired_lt_one_iff {d : ℕ} {p : ℚ} (hd : 1 ≤ d) (hp : 0 < p) : bitsRequired d p < 1 ↔ 1 ≤ p := by
  rw [← Int.le_sub_one_iff, sub_self, bitsRequired_le_iff d hp, neg_zero, zpow_zero,
    one_le_pow_iff_of_nonneg hp.le (by omega)]

/-! ### Rounding to an integer (R11) -/

theorem roundTie_natCast (mode : TieMode) (n : ℕ) : roundTie mode (n : ℚ) = n := by
  have h := roundTie_of_fract_lt (mode := mode) n.cast_nonneg (show Int.fract (n : ℚ) < 1 / 2 by norm_num)
  rw [Int.floor_natCast] at h
  exact_mod_cast h

theorem roundTie_le (mode : TieMode) {q : ℚ} {n : ℕ} (hq : 0 ≤ q) (h : q ≤ n) : roundTie mode q ≤ n := by
  have hnear := (abs_le.mp (abs_roundTie_sub_le mode hq)).2
  have hlt : (roundTie mode q : ℚ) < n + 1 := by linarith
  exact Nat.lt_succ_iff.mp (by exact_mod_cast hlt)

theorem roundTie_pos (mode : TieMode) {q : ℚ} (h : 1 / 2 < q) : 0 < roundTie mode q := by
  have hnear := (abs_le.mp (abs_roundTie_sub_le mode (show 0 ≤ q by linarith))).1
  have hpos : (0 : ℚ) < roundTie mode q := by linarith
  exact_mod_cast hpos

/-- Under both modes a tie goes up to an even number. -/
theorem roundTie_eq_even_iff (mode : TieMode) {q : ℚ} {n : ℕ} (hn : Even n) (hq : 0 ≤ q) (hlt : q < n) :
    roundTie mode q = n ↔ (n : ℚ) - 1 / 2 ≤ q := by
  constructor
  · intro h
    have hnear := (abs_le.mp (abs_roundTie_sub_le mode hq)).2
    rw [h] at hnear
    linarith
  · intro h
    have hfloor : ⌊q⌋ = (n : ℤ) - 1 := by
      rw [Int.floor_eq_iff]
      push_cast
      constructor <;> linarith
    have hfract : 1 / 2 ≤ Int.fract q := by
      rw [Int.fract, hfloor]
      push_cast
      linarith
    have hround : (roundTie mode q : ℤ) = ⌊q⌋ + 1 := by
      rcases hfract.lt_or_eq with hup | htie
      · exact roundTie_of_lt_fract hq hup
      · cases mode with
        | halfUp => exact roundTie_halfUp_of_tie hq htie.symm
        | halfEven =>
          obtain ⟨m, rfl⟩ := hn
          rw [roundTie_halfEven_of_tie hq htie.symm, if_neg (by omega)]
    omega

theorem roundTie_modes_eq {q : ℚ} (hq : 0 ≤ q) (h : Int.fract q ≠ 1 / 2) :
    roundTie .halfUp q = roundTie .halfEven q := by
  zify
  rcases h.lt_or_gt with h | h
  · rw [roundTie_of_fract_lt hq h, roundTie_of_fract_lt hq h]
  · rw [roundTie_of_lt_fract hq h, roundTie_of_lt_fract hq h]

theorem roundTie_modes_ne {q : ℚ} (hq : 0 ≤ q) (htie : Int.fract q = 1 / 2) (heven : ⌊q⌋ % 2 = 0) :
    roundTie .halfUp q ≠ roundTie .halfEven q := by
  have hup := roundTie_halfUp_of_tie hq htie
  have hdown := roundTie_halfEven_of_tie hq htie
  rw [if_pos heven] at hdown
  omega

/-! ### The rounded entry (R84, R86) -/

theorem roundedEntry_eq (mode : TieMode) (i b d : ℕ) :
    roundedEntry mode i b d = roundTie mode ((i : ℚ) * 10 ^ d / 2 ^ b) := by
  simp [roundedEntry]

/-- An entry whose value is an integer is that integer. -/
theorem roundedEntry_of_mul_eq (mode : TieMode) {i b d n : ℕ} (h : i * 10 ^ d = n * 2 ^ b) :
    roundedEntry mode i b d = n := by
  rw [roundedEntry, h, Nat.cast_mul, mul_div_cancel_right₀ _ (by positivity), roundTie_natCast]

theorem entryQuotient_lt {i b : ℕ} (d : ℕ) (hi : i < 2 ^ b) : (i : ℚ) * 10 ^ d / 2 ^ b < (10 ^ d : ℕ) := by
  have hi' : (i : ℚ) < 2 ^ b := by exact_mod_cast hi
  rw [div_lt_iff₀ (by positivity), mul_comm, Nat.cast_pow]
  exact mul_lt_mul_of_pos_left hi' (by positivity)

theorem roundedEntry_le (mode : TieMode) {i b : ℕ} (d : ℕ) (hi : i < 2 ^ b) :
    roundedEntry mode i b d ≤ 10 ^ d := by
  rw [roundedEntry_eq]
  exact roundTie_le mode (by positivity) (entryQuotient_lt d hi).le

/-- The rounding overflows from `1 − 10^-D / 2` on (R86); the bound itself is a tie, and `10^D` is even. -/
theorem roundedEntry_eq_pow_iff (mode : TieMode) {i b d : ℕ} (hd : 1 ≤ d) (hi : i < 2 ^ b) :
    roundedEntry mode i b d = 10 ^ d ↔ 1 - 1 / 10 ^ d / 2 ≤ (i : ℚ) / 2 ^ b := by
  have heven : Even (10 ^ d) := (show Even 10 by decide).pow_of_ne_zero (by omega)
  have hscale : (10 : ℚ) ^ d - 1 / 2 = (1 - 1 / 10 ^ d / 2) * 10 ^ d := by field_simp
  rw [roundedEntry_eq, roundTie_eq_even_iff mode heven (by positivity) (entryQuotient_lt d hi), Nat.cast_pow,
    Nat.cast_ofNat, hscale, mul_div_right_comm]
  exact mul_le_mul_iff_left₀ (by positivity)

/-- In the upper half of the table no entry rounds to zero. -/
theorem roundedEntry_pos (mode : TieMode) {i b d : ℕ} (hd : 1 ≤ d) (hi : 2 ^ b ≤ 2 * i) :
    0 < roundedEntry mode i b d := by
  rw [roundedEntry_eq]
  refine roundTie_pos mode ?_
  have hi' : (2 : ℚ) ^ b ≤ 2 * i := by exact_mod_cast hi
  have hpos : (0 : ℚ) < 2 ^ b := by positivity
  have hten : (1 : ℚ) < 10 ^ d := one_lt_pow₀ (by norm_num) (by omega)
  rw [lt_div_iff₀ hpos]
  calc 1 / 2 * (2 : ℚ) ^ b ≤ i := by linarith
    _ < i * 10 ^ d := lt_mul_of_one_lt_right (by linarith) hten

/-! ### The correction (R85) -/

theorem correctDown_of_head_ne {d : ℕ} {t : List (List Digit)} (h : t.head? ≠ some (List.replicate d 0)) :
    correctDown d t = t := by
  cases t with
  | nil => rfl
  | cons e es => rw [correctDown, decDigits_zero, if_neg (by simpa using h)]

theorem correctDown_replicate_append (d k : ℕ) (t : List (List Digit)) :
    correctDown d (List.replicate k (List.replicate d 0) ++ t) =
      List.replicate k (List.replicate d 9) ++ correctDown d t := by
  induction k with
  | zero => rfl
  | succ k ih =>
    rw [List.replicate_succ, List.cons_append, correctDown, decDigits_zero, if_pos rfl, decDigits_nines, ih,
      List.replicate_succ, List.cons_append]

/-- Settles O46: the scan goes over the zeros, which stand first in the reversed table, and stops at the rest. -/
theorem correctionReplacesZeroSuffix : Obligations.CorrectionReplacesZeroSuffix := by
  intro d k kept h
  rw [correctTable, List.reverse_append, List.reverse_replicate, correctDown_replicate_append,
    correctDown_of_head_ne (by rwa [List.head?_reverse]), List.reverse_append, List.reverse_replicate,
    List.reverse_reverse]

/-! ### The raw and the corrected table (R84, R86) -/

/-- Entry `i` before the correction: an overflow leaves zeros after the point (R84). -/
def wrappedEntry (mode : TieMode) (b d i : ℕ) : List Digit := decDigits d (roundedEntry mode i b d % 10 ^ d)

/-- Entry `i` after the correction (R86). -/
def clampedEntry (mode : TieMode) (b d i : ℕ) : List Digit :=
  decDigits d (min (roundedEntry mode i b d) (10 ^ d - 1))

theorem rawTable_eq_map_wrappedEntry (mode : TieMode) {b : ℕ} (d : ℕ) (hb : 1 ≤ b) :
    rawTable mode b d = .ok ((List.range (2 ^ b)).map (wrappedEntry mode b d)) := by
  rw [rawTable_eq mode d hb]
  simp only [div_mul_eq_mul_div, Nat.cast_pow, Nat.cast_ofNat, ← roundedEntry_eq]
  rfl

theorem wrappedEntry_of_overflow {mode : TieMode} {b d i : ℕ} (h : roundedEntry mode i b d = 10 ^ d) :
    wrappedEntry mode b d i = List.replicate d 0 := by
  rw [wrappedEntry, h, Nat.mod_self, decDigits_zero]

theorem clampedEntry_of_overflow {mode : TieMode} {b d i : ℕ} (h : roundedEntry mode i b d = 10 ^ d) :
    clampedEntry mode b d i = List.replicate d 9 := by
  rw [clampedEntry, h, min_eq_right (Nat.sub_le _ _), decDigits_nines]

theorem clampedEntry_eq_wrappedEntry {mode : TieMode} {b d i : ℕ} (h : roundedEntry mode i b d < 10 ^ d) :
    clampedEntry mode b d i = wrappedEntry mode b d i := by
  rw [clampedEntry, wrappedEntry, min_eq_left (Nat.le_sub_one_of_lt h), Nat.mod_eq_of_lt h]

theorem clampedEntry_ne_wrappedEntry_iff (mode : TieMode) {b d i : ℕ} (hd : 1 ≤ d) (hi : i < 2 ^ b) :
    clampedEntry mode b d i ≠ wrappedEntry mode b d i ↔ roundedEntry mode i b d = 10 ^ d := by
  constructor
  · intro h
    exact (roundedEntry_le mode d hi).eq_of_not_lt (mt clampedEntry_eq_wrappedEntry h)
  · intro h
    rw [clampedEntry_of_overflow h, wrappedEntry_of_overflow h, Ne, List.replicate_right_inj (by omega)]
    decide

theorem wrappedEntry_ne_zeros {mode : TieMode} {b d i : ℕ} (hpos : 0 < roundedEntry mode i b d)
    (h : roundedEntry mode i b d < 10 ^ d) : wrappedEntry mode b d i ≠ List.replicate d 0 := by
  rw [wrappedEntry, Nat.mod_eq_of_lt h, ← decDigits_zero]
  exact fun heq => hpos.ne' (decDigits_injective h (by positivity) heq)

/-- The first index whose rounding overflows, or the table's length when none does. -/
def firstOverflow (b d : ℕ) : ℕ := ⌈(1 - 1 / 10 ^ d / 2 : ℚ) * 2 ^ b⌉₊

theorem firstOverflow_le (b d : ℕ) : firstOverflow b d ≤ 2 ^ b := by
  rw [firstOverflow, Nat.ceil_le, Nat.cast_pow, Nat.cast_ofNat]
  exact mul_le_of_le_one_left (by positivity) (sub_le_self _ (by positivity))

theorem roundedEntry_eq_pow_iff_firstOverflow_le (mode : TieMode) {i b d : ℕ} (hd : 1 ≤ d) (hi : i < 2 ^ b) :
    roundedEntry mode i b d = 10 ^ d ↔ firstOverflow b d ≤ i := by
  rw [roundedEntry_eq_pow_iff mode hd hi, le_div_iff₀ (by positivity), firstOverflow, Nat.ceil_le]

theorem roundedEntry_lt_of_lt_firstOverflow (mode : TieMode) {i b d : ℕ} (hd : 1 ≤ d) (h : i < firstOverflow b d) :
    roundedEntry mode i b d < 10 ^ d := by
  have hi : i < 2 ^ b := h.trans_le (firstOverflow_le b d)
  exact (roundedEntry_le mode d hi).lt_of_ne (mt (roundedEntry_eq_pow_iff_firstOverflow_le mode hd hi).mp h.not_ge)

/-- The overflows lie above the middle of the table: the entry of `1/2` is not one. -/
theorem middle_lt_firstOverflow {b d : ℕ} (hb : 1 ≤ b) (hd : 1 ≤ d) : 2 ^ (b - 1) < firstOverflow b d := by
  have hten : (1 : ℚ) / 10 ^ d < 1 :=
    (div_lt_one (by positivity)).mpr (one_lt_pow₀ (by norm_num) (by omega))
  obtain ⟨c, rfl⟩ := Nat.exists_eq_add_of_le' hb
  rw [firstOverflow, Nat.lt_ceil, Nat.add_sub_cancel, Nat.cast_pow, Nat.cast_ofNat]
  calc (2 : ℚ) ^ c = 1 / 2 * 2 ^ (c + 1) := by ring
    _ < (1 - 1 / 10 ^ d / 2) * 2 ^ (c + 1) := mul_lt_mul_of_pos_right (by linarith) (by positivity)

/-- A table over the indices, cut where the overflows begin. -/
theorem map_range_eq_append_replicate {f g : ℕ → List Digit} {m n : ℕ} {z : List Digit} (hmn : m ≤ n)
    (hlow : ∀ i < m, g i = f i) (hhigh : ∀ i < n, m ≤ i → g i = z) :
    (List.range n).map g = (List.range m).map f ++ List.replicate (n - m) z := by
  obtain ⟨k, rfl⟩ := Nat.exists_eq_add_of_le hmn
  rw [List.range_add, List.map_append, Nat.add_sub_cancel_left]
  congr 1
  · exact List.map_congr_left fun i hi => hlow i (List.mem_range.mp hi)
  · refine List.eq_replicate_iff.mpr ⟨by simp, ?_⟩
    simp only [List.map_map, List.mem_map, List.mem_range, Function.comp_apply]
    rintro _ ⟨j, hj, rfl⟩
    exact hhigh _ (by omega) (by omega)

/-- The correction clamps (R86). Its scan stops just below the first overflow, at an entry of the upper half. -/
theorem correctTable_map_wrappedEntry (mode : TieMode) {b d : ℕ} (hb : 1 ≤ b) (hd : 1 ≤ d) :
    correctTable d ((List.range (2 ^ b)).map (wrappedEntry mode b d)) =
      (List.range (2 ^ b)).map (clampedEntry mode b d) := by
  have hover : ∀ i < 2 ^ b, firstOverflow b d ≤ i → roundedEntry mode i b d = 10 ^ d :=
    fun i hi => (roundedEntry_eq_pow_iff_firstOverflow_le mode hd hi).mpr
  have hbelow : ∀ i < firstOverflow b d, roundedEntry mode i b d < 10 ^ d :=
    fun i => roundedEntry_lt_of_lt_firstOverflow mode hd
  have hlast : ((List.range (firstOverflow b d)).map (wrappedEntry mode b d)).getLast? ≠
      some (List.replicate d 0) := by
    have hmid := middle_lt_firstOverflow hb hd
    have htwo : 2 ^ b = 2 * 2 ^ (b - 1) := by rw [← pow_succ', Nat.sub_add_cancel hb]
    rw [List.getLast?_map, List.getLast?_range, if_neg (by omega), Option.map_some, Ne, Option.some_inj]
    exact wrappedEntry_ne_zeros (roundedEntry_pos mode hd (by omega)) (hbelow _ (by omega))
  rw [map_range_eq_append_replicate (firstOverflow_le b d) (fun _ _ => rfl)
      (fun i hi h => wrappedEntry_of_overflow (hover i hi h)),
    correctionReplacesZeroSuffix d _ _ hlast,
    map_range_eq_append_replicate (firstOverflow_le b d) (fun i hi => clampedEntry_eq_wrappedEntry (hbelow i hi))
      (fun i hi h => clampedEntry_of_overflow (hover i hi h))]

theorem decDigits_five_mul_pow (n : ℕ) : decDigits (n + 1) (5 * 10 ^ n) = 5 :: List.replicate n 0 := by
  induction n with
  | zero => rfl
  | succ n ih =>
    have hdiv : 5 * 10 ^ (n + 1) / 10 = 5 * 10 ^ n := by omega
    have hmod : 5 * 10 ^ (n + 1) % 10 = 0 := by omega
    rw [List.replicate_succ', ← List.cons_append, ← ih, decDigits, hdiv]
    simp only [hmod]
    rfl

/-- The entry of `1/2` is `5` followed by zeros (R86). -/
theorem wrappedEntry_middle (mode : TieMode) {b d : ℕ} (hb : 1 ≤ b) (hd : 1 ≤ d) :
    wrappedEntry mode b d (2 ^ (b - 1)) = 5 :: List.replicate (d - 1) 0 := by
  obtain ⟨c, rfl⟩ := Nat.exists_eq_add_of_le' hb
  obtain ⟨e, rfl⟩ := Nat.exists_eq_add_of_le' hd
  have hvalue : 2 ^ c * 10 ^ (e + 1) = 5 * 10 ^ e * 2 ^ (c + 1) := by ring
  have hlt : 5 * 10 ^ e < 10 ^ (e + 1) := by
    rw [pow_succ']
    exact Nat.mul_lt_mul_of_pos_right (by decide) (by positivity)
  rw [Nat.add_sub_cancel, Nat.add_sub_cancel, wrappedEntry, roundedEntry_of_mul_eq mode hvalue, Nat.mod_eq_of_lt hlt,
    decDigits_five_mul_pow]

theorem clampedEntry_zero (mode : TieMode) (b d : ℕ) : clampedEntry mode b d 0 = decDigits d 0 := by
  rw [clampedEntry, roundedEntry_of_mul_eq (n := 0) mode (by simp), Nat.zero_min]

theorem getElem?_map_range (f : ℕ → List Digit) {i n : ℕ} (hi : i < n) :
    ((List.range n).map f)[i]? = some (f i) := by
  rw [List.getElem?_map, List.getElem?_range hi, Option.map_some]

/-- Settles O47: both tables are lists over the indices, and they differ where the rounding overflows. -/
theorem correctedEntriesAreOverflows : Obligations.CorrectedEntriesAreOverflows := by
  intro mode b d hb hd
  have hcorrect := correctTable_map_wrappedEntry mode hb hd
  refine ⟨_, rawTable_eq_map_wrappedEntry mode d hb, by simp, ?_, ?_, fun i hi => ⟨?_, ?_, ?_, ?_⟩⟩
  · rw [hcorrect, getElem?_map_range _ (by positivity), clampedEntry_zero]
  · rw [getElem?_map_range _ (Nat.pow_lt_pow_right one_lt_two (by omega)), wrappedEntry_middle mode hb hd]
  · exact getElem?_map_range _ hi
  · rw [hcorrect, getElem?_map_range _ hi, getElem?_map_range _ hi, Ne, Option.some_inj]
    exact clampedEntry_ne_wrappedEntry_iff mode hd hi
  · exact roundedEntry_eq_pow_iff mode hd hi
  · rw [hcorrect]
    exact getElem?_map_range _ hi

/-! ### Ties and exactness (R87) -/

/-- A quotient by a power of two is a tie when it is half an odd integer. -/
theorem fract_div_two_pow_eq_half_iff (n b : ℕ) :
    Int.fract ((n : ℚ) / 2 ^ b) = 1 / 2 ↔ ∃ m : ℕ, 2 * n = (2 * m + 1) * 2 ^ b := by
  have hpos : (0 : ℚ) < 2 ^ b := by positivity
  have hcast (m : ℕ) : 2 * n = (2 * m + 1) * 2 ^ b ↔ (n : ℚ) / 2 ^ b = m + 1 / 2 := by
    rw [div_eq_iff hpos.ne', ← @Nat.cast_inj ℚ]
    push_cast
    constructor <;> intro h <;> linarith
  simp only [hcast]
  constructor
  · intro h
    refine ⟨⌊(n : ℚ) / 2 ^ b⌋₊, ?_⟩
    rw [← h, natCast_floor_eq_intCast_floor (by positivity), Int.floor_add_fract]
  · rintro ⟨m, hm⟩
    rw [hm, Int.fract_natCast_add]
    norm_num

/-- `B ≤ D` leaves an even number on the left, and otherwise `5^D` takes no part in the powers of two. -/
theorem tie_iff (i b d : ℕ) : Int.fract ((i : ℚ) * 10 ^ d / 2 ^ b) = 1 / 2 ↔
    1 ≤ i ∧ ∃ z : ℕ, z + d + 1 = b ∧ 2 ^ z ∣ i ∧ ¬ 2 ^ (z + 1) ∣ i := by
  have hcast : (i : ℚ) * 10 ^ d = ((i * 10 ^ d : ℕ) : ℚ) := by push_cast; rfl
  rw [hcast, fract_div_two_pow_eq_half_iff]
  have hsplit : 2 * (i * 10 ^ d) = i * 5 ^ d * 2 ^ (d + 1) := by
    rw [show 10 = 5 * 2 from rfl, mul_pow]
    ring
  rw [hsplit]
  have hodd : Odd (5 ^ d) := Odd.pow (by decide)
  constructor
  · rintro ⟨m, hm⟩
    rcases le_or_gt b d with hbd | hbd
    · obtain ⟨e, rfl⟩ := Nat.exists_eq_add_of_le hbd
      have hcancel : 2 * (i * 5 ^ (b + e) * 2 ^ e) = 2 * m + 1 :=
        Nat.eq_of_mul_eq_mul_right (Nat.two_pow_pos b) (by rw [← hm]; ring)
      omega
    · obtain ⟨z, rfl⟩ := Nat.exists_eq_add_of_le' (show d + 1 ≤ b from hbd)
      have hcancel : i * 5 ^ d = (2 * m + 1) * 2 ^ z :=
        Nat.eq_of_mul_eq_mul_right (Nat.two_pow_pos (d + 1)) (by rw [hm]; ring)
      have hdvd (k : ℕ) : 2 ^ k ∣ i ↔ 2 ^ k ∣ (2 * m + 1) * 2 ^ z := by
        rw [← hcancel, (Nat.Coprime.pow k d (by decide)).dvd_mul_right]
      have hz : ¬ 2 ^ (z + 1) ∣ i := by
        rw [hdvd, pow_succ', Nat.mul_dvd_mul_iff_right (Nat.two_pow_pos z)]
        omega
      refine ⟨Nat.pos_of_ne_zero ?_, z, by omega, (hdvd z).mpr (Nat.dvd_mul_left _ _), hz⟩
      rintro rfl
      exact hz (dvd_zero _)
  · rintro ⟨-, z, rfl, ⟨k, rfl⟩, hz⟩
    have hk : Odd k := by
      rw [← Nat.not_even_iff_odd, even_iff_two_dvd]
      exact fun h => hz (pow_succ 2 z ▸ Nat.mul_dvd_mul_left _ h)
    obtain ⟨m, hm⟩ := hk.mul hodd
    refine ⟨m, ?_⟩
    rw [← hm]
    ring

/-- The least tie stands at `2^(B−D−1)`: its value is `5^D / 2`, whose floor is even because `4` divides
`5^D − 1`. -/
theorem roundedEntry_modes_ne_of_least_tie (z d : ℕ) :
    roundedEntry .halfUp (2 ^ z) (z + d + 1) d ≠ roundedEntry .halfEven (2 ^ z) (z + d + 1) d := by
  obtain ⟨k, hk⟩ : 4 ∣ 5 ^ d - 1 := by simpa using Nat.sub_dvd_pow_sub_pow 5 1 d
  have hfive : (5 : ℚ) ^ d = 4 * k + 1 := by
    have hpow : 5 ^ d = 4 * k + 1 := by have := Nat.one_le_pow d 5 (by decide); omega
    exact_mod_cast hpow
  have hvalue : ((2 ^ z : ℕ) : ℚ) * 10 ^ d / 2 ^ (z + d + 1) = ((2 * k : ℕ) : ℚ) + 1 / 2 := by
    rw [div_eq_iff (by positivity), show (10 : ℚ) = 5 * 2 by norm_num, mul_pow, hfive]
    push_cast
    ring
  rw [roundedEntry_eq, roundedEntry_eq, hvalue]
  refine roundTie_modes_ne (by positivity) ?_ ?_
  · rw [Int.fract_natCast_add]
    norm_num
  · rw [Int.floor_natCast_add]
    norm_num

/-- With `B ≤ D` the value of every entry is an integer. -/
theorem roundedEntry_exact (mode : TieMode) (i : ℕ) {b d : ℕ} (hbd : b ≤ d) :
    (roundedEntry mode i b d : ℚ) = (i : ℚ) * 10 ^ d / 2 ^ b := by
  obtain ⟨n, hn⟩ : 2 ^ b ∣ i * 10 ^ d :=
    ((pow_dvd_pow 2 hbd).trans (pow_dvd_pow_of_dvd (by decide) d)).mul_left i
  rw [roundedEntry_of_mul_eq mode (hn.trans (mul_comm _ _)), eq_div_iff (by positivity)]
  exact_mod_cast (hn.trans (mul_comm _ _)).symm

/-- Settles O48: a tie is half an odd integer, so the powers of two in `i` decide. -/
theorem tiesAndExactness : Obligations.TiesAndExactness := by
  refine ⟨fun i b d _ => tie_iff i b d, fun i b d _ h => ?_, fun b d h => ?_, fun i b d _ h => ?_,
    fun mode i b d _ h => roundedEntry_exact mode i h, by decide +kernel⟩
  · obtain ⟨-, z, hz, -⟩ := (tie_iff i b d).mp h
    omega
  · obtain ⟨z, rfl⟩ := Nat.exists_eq_add_of_le' h
    exact ⟨2 ^ z, Nat.pow_lt_pow_right one_lt_two (by omega), roundedEntry_modes_ne_of_least_tie z d⟩
  · rw [roundedEntry_eq, roundedEntry_eq]
    exact roundTie_modes_eq (by positivity) h

/-! ### What `PTGEN` and `FRAC2D` answer (R83, R88, R89) -/

theorem exec_of_instrOutcome_ok {i : Instr} {s : State} {v : Result} (h : instrOutcome s.build i = .ok v) :
    exec i s = .next { s with resp := some ⟨.ok, some v⟩ } := by
  rw [exec_writes_responseOf, h, responseOf]

theorem exec_of_instrOutcome_error {i : Instr} {s : State} {e : ErrorKind} (h : instrOutcome s.build i = .error e) :
    exec i s = .next { s with resp := some ⟨e.status, none⟩ } := by
  rw [exec_writes_responseOf, h, responseOf]

theorem exceeds_toNat_iff (limit : Option ℕ) (n : ℤ) :
    exceeds limit n.toNat = true ↔ ∃ m : ℕ, limit = some m ∧ (m : ℤ) < n := by
  simp only [exceeds_eq_true_iff, Int.lt_toNat]

/-- The four checks of R83, the third one read as `P ≥ 1`. -/
def PtgenRejects (bp : BuildParams) (d : ℕ) (p : ℚ) : Prop :=
  d = 0 ∨ p ≤ 0 ∨ 1 ≤ p ∨ ∃ m : ℕ, bp.maxTableBits = some m ∧ (m : ℤ) < bitsRequired d p

theorem ptgenOutcome_of_rejects {bp : BuildParams} {d : ℕ} {p : ℚ} (h : PtgenRejects bp d p) :
    ptgenOutcome bp d p = .error .domainError := by
  unfold ptgenOutcome
  split_ifs with hd hp hb hlimit
  case neg =>
    rw [bitsRequired_lt_one_iff (by omega) (not_le.mp hp)] at hb
    rw [exceeds_toNat_iff] at hlimit
    exact absurd h (by simp [PtgenRejects, hd, hp, hb, hlimit])
  all_goals rfl

theorem one_le_of_eq_bitsRequired {b d : ℕ} {p : ℚ} (hd : 1 ≤ d) (hp : 0 < p) (hp1 : p < 1)
    (hb : (b : ℤ) = bitsRequired d p) : 1 ≤ b := by
  have hnot := mt (bitsRequired_lt_one_iff hd hp).mp hp1.not_ge
  omega

theorem ptgenOutcome_eq_table {bp : BuildParams} {b d : ℕ} {p : ℚ} (hd : 1 ≤ d) (hp : 0 < p) (hp1 : p < 1)
    (hb : (b : ℤ) = bitsRequired d p) (hlimit : exceeds bp.maxTableBits b = false) :
    ptgenOutcome bp d p =
      .ok (.table b (d * 2 ^ b) ((List.range (2 ^ b)).map (clampedEntry bp.tieMode b d))) := by
  have hb1 := one_le_of_eq_bitsRequired hd hp hp1 hb
  rw [ptgenOutcome, ← hb, Int.toNat_natCast, if_neg (by omega), if_neg hp.not_ge, if_neg (by omega), hlimit]
  simp only [rawTable_eq_map_wrappedEntry bp.tieMode d hb1, correctTable_map_wrappedEntry bp.tieMode hb1 hd]
  rfl

/-- Settles O44: without a failing check `B` is a natural number of at least one bit within the limit. -/
theorem ptgenDomainChecks : Obligations.PtgenDomainChecks := by
  refine ⟨fun d p => bitsRequired_lt_one_iff, fun s d p => ⟨fun hbad => ?_, fun hgood => ?_⟩⟩
  · exact exec_of_instrOutcome_error (e := .domainError) (ptgenOutcome_of_rejects hbad)
  · simp only [not_or, not_le, ← exceeds_toNat_iff, Bool.not_eq_true] at hgood
    obtain ⟨hd, hp, hp1, hlimit⟩ := hgood
    have hd1 : 1 ≤ d := Nat.one_le_iff_ne_zero.mpr hd
    have hb := mt (bitsRequired_lt_one_iff hd1 hp).mp hp1.not_ge
    have hcast : ((bitsRequired d p).toNat : ℤ) = bitsRequired d p := Int.toNat_of_nonneg (by omega)
    exact ⟨_, _, _, exec_of_instrOutcome_ok (ptgenOutcome_eq_table hd1 hp hp1 hcast hlimit)⟩

theorem clampedEntry_eq (mode : TieMode) (b d i : ℕ) : clampedEntry mode b d i =
    decDigits d (min (roundTie mode ((i : ℚ) * 10 ^ d / 2 ^ b)) (10 ^ d - 1)) := by
  rw [clampedEntry, roundedEntry_eq]

/-- Settles O45: the corrected table is the list of the clamped entries. -/
theorem ptgenTableEntries : Obligations.PtgenTableEntries := by
  intro s d b p hd hp hp1 hb hlimit
  refine ⟨_, exec_of_instrOutcome_ok (ptgenOutcome_eq_table hd hp hp1 hb hlimit), by simp, fun i hi => ?_⟩
  rw [getElem?_map_range _ hi, clampedEntry_eq]

theorem frac2dOutcome_of_domainError {bp : BuildParams} (i : ℕ) {b d : ℕ}
    (h : d = 0 ∨ b = 0 ∨ exceeds bp.maxTableBits b = true) : frac2dOutcome bp i b d = .error .domainError := by
  rw [← or_assoc] at h
  rcases h with hzero | hlimit
  · exact if_pos hzero
  · rw [frac2dOutcome, if_pos hlimit, ite_self]

theorem frac2dOutcome_of_domain {bp : BuildParams} (i : ℕ) {b d : ℕ} (hd : d ≠ 0) (hb : b ≠ 0)
    (hlimit : exceeds bp.maxTableBits b = false) : frac2dOutcome bp i b d =
      if 2 ^ b ≤ i then .error .rangeError else .ok (.digits (clampedEntry bp.tieMode b d i)) := by
  rw [frac2dOutcome, if_neg (not_or.mpr ⟨hd, hb⟩), hlimit]
  rfl

theorem exec_frac2d_of_lt (s : State) {i b d : ℕ} (hd : d ≠ 0) (hb : b ≠ 0)
    (hlimit : exceeds s.build.maxTableBits b = false) (hi : i < 2 ^ b) : exec (.frac2d i b d) s =
      .next { s with resp := some ⟨.ok, some (.digits (clampedEntry s.build.tieMode b d i))⟩ } :=
  exec_of_instrOutcome_ok ((frac2dOutcome_of_domain i hd hb hlimit).trans (if_neg hi.not_ge))

/-- Settles O49: the domain checks come before the look at the index. -/
theorem frac2dChecksThenDigits : Obligations.Frac2dChecksThenDigits := by
  intro s i b d
  refine ⟨fun h => ?_, fun hd hb hlimit hi => ?_, fun hd hb hlimit hi => ?_⟩
  · exact exec_of_instrOutcome_error (e := .domainError) (frac2dOutcome_of_domainError i h)
  · exact exec_of_instrOutcome_error (e := .rangeError) ((frac2dOutcome_of_domain i hd hb hlimit).trans (if_pos hi))
  · rw [exec_frac2d_of_lt s hd hb hlimit hi, clampedEntry_eq]

/-- Settles O50: both commands answer the clamped entry. -/
theorem frac2dIsPtgenEntry : Obligations.Frac2dIsPtgenEntry := by
  intro s d b i p hd hp hp1 hb hlimit hi
  have hb1 := one_le_of_eq_bitsRequired hd hp hp1 hb
  exact ⟨_, _, exec_of_instrOutcome_ok (ptgenOutcome_eq_table hd hp hp1 hb hlimit), getElem?_map_range _ hi,
    exec_frac2d_of_lt s (by omega) (by omega) hlimit hi⟩

end Sys2Proof.Machine
end

section
/-! PROOF. The statements of spec/60_exceptions.md: the status codes and which command raises which error (R91 to
R94), and that no error stops the block (R90, R98). -/

namespace Sys2Proof.Machine

/-! ### The status codes (R91) -/

@[simp] theorem statusOfCode_code (st : Status) : statusOfCode st.code = some st := by
  cases st <;> rfl

theorem code_of_statusOfCode {n : ℕ} {st : Status} (h : statusOfCode n = some st) : st.code = n := by
  unfold statusOfCode at h
  split at h <;> cases h <;> rfl

/-- Settles O17: each number below 5 is the code of the status it reads as, and from 5 on nothing is read. -/
theorem statusCodesAsListed : Obligations.StatusCodesAsListed :=
  ⟨rfl, rfl, rfl, rfl, rfl, statusOfCode_code, fun _ _ => code_of_statusOfCode⟩

/-! ### The errors of each command (R91 to R94) -/

theorem eq_formatError_of_parseOutcome {bp : BuildParams} {str : List Byte} {e : ErrorKind}
    (h : parseOutcome bp str = .error e) : e = .formatError := by
  unfold parseOutcome at h
  split_ifs at h
  · cases h
    rfl
  · rcases bfparse_cases str with ⟨ip, fp, hv⟩ | hv <;> rw [hv] at h <;> cases h
    rfl

theorem eq_rangeError_of_decOutcome {n : ℕ} {e : ErrorKind} (h : decOutcome n = .error e) : e = .rangeError := by
  unfold decOutcome at h
  rcases decodeFloat24_cases n with hq | ⟨q, hq⟩ <;> rw [hq] at h <;> cases h
  rfl

/-- The exponent check is the encoder's only error. -/
theorem encodeFloat24_cases (x : ℚ) :
    encodeFloat24 x = .error .rangeError ∨ ∃ w, encodeFloat24 x = .ok w := by
  by_cases hx : x = 0
  · exact .inr ⟨_, hx ▸ encodeFloat24_zero⟩
  · obtain ⟨k, r, h⟩ := exists_isNormalForm hx
    rw [encodeFloat24_eq h]
    split_ifs
    · exact .inl rfl
    · exact .inr ⟨_, rfl⟩

theorem eq_rangeError_of_encOutcome {x : ℚ} {e : ErrorKind} (h : encOutcome x = .error e) : e = .rangeError := by
  unfold encOutcome at h
  rcases encodeFloat24_cases x with hw | ⟨w, hw⟩ <;> rw [hw] at h <;> cases h
  rfl

/-- Past the four domain checks the raw table does not raise. -/
theorem eq_domainError_of_ptgenOutcome {bp : BuildParams} {d : ℕ} {p : ℚ} {e : ErrorKind}
    (h : ptgenOutcome bp d p = .error e) : e = .domainError := by
  unfold ptgenOutcome at h
  split_ifs at h with _ _ hb
  case neg =>
    simp only [rawTable_eq bp.tieMode d (show 1 ≤ (bitsRequired d p).toNat by omega)] at h
    cases h
  all_goals
    cases h
    rfl

theorem eq_domainError_or_rangeError_of_frac2dOutcome {bp : BuildParams} {i b d : ℕ} {e : ErrorKind}
    (h : frac2dOutcome bp i b d = .error e) : e = .domainError ∨ e = .rangeError := by
  unfold frac2dOutcome at h
  split_ifs at h <;> cases h
  · exact .inl rfl
  · exact .inl rfl
  · exact .inr rfl

/-- The raised-by column of R91, with the rows that a command can reach. -/
theorem instrOutcome_error_cases {bp : BuildParams} {i : Instr} {e : ErrorKind} (h : instrOutcome bp i = .error e) :
    (e = .formatError ∧ ∃ str, i = .parse str) ∨
    (e = .rangeError ∧ ((∃ n, i = .dec n) ∨ (∃ x, i = .enc x) ∨ ∃ k b d, i = .frac2d k b d)) ∨
    (e = .domainError ∧ ((∃ d p, i = .ptgen d p) ∨ ∃ k b d, i = .frac2d k b d)) := by
  cases i with
  | parse str => exact .inl ⟨eq_formatError_of_parseOutcome h, str, rfl⟩
  | enc x => exact .inr (.inl ⟨eq_rangeError_of_encOutcome h, .inr (.inl ⟨x, rfl⟩)⟩)
  | dec n => exact .inr (.inl ⟨eq_rangeError_of_decOutcome h, .inl ⟨n, rfl⟩⟩)
  | ptgen d p => exact .inr (.inr ⟨eq_domainError_of_ptgenOutcome h, .inl ⟨d, p, rfl⟩⟩)
  | frac2d k b d =>
    rcases eq_domainError_or_rangeError_of_frac2dOutcome h with he | he
    · exact .inr (.inr ⟨he, .inr ⟨k, b, d, rfl⟩⟩)
    · exact .inr (.inl ⟨he, .inr (.inr ⟨k, b, d, rfl⟩)⟩)

/-- Settles O18: the response is `OK`, or its status is one of the errors in the command's rows of R91. -/
theorem errorsRaisedByNamedCommands : Obligations.ErrorsRaisedByNamedCommands := by
  refine fun i s => ⟨_, exec_writes_responseOf i s, ?_⟩
  cases hr : instrOutcome s.build i with
  | ok v => simp [responseOf]
  | error e =>
    rcases instrOutcome_error_cases hr with ⟨rfl, hi⟩ | ⟨rfl, hi⟩ | ⟨rfl, hi⟩ <;>
      simpa [responseOf, ErrorKind.status] using hi

/-! ### Nothing stops the block (R90, R98, R113) -/

/-- A well-shaped command is a command of the block or an illegal word, so its shape is not refused. -/
theorem decode_of_wellShaped {c : RawCommand} (h : c.wellShaped = true) :
    (∃ i, decode c = .ok i) ∨ decode c = .error (.illegalWord c.word) := by
  cases hop : decodeOpcode c.word with
  | none => exact .inr (decode_of_decodeOpcode_none hop)
  | some op =>
    have hkinds : c.operands.map operandKind = operandKinds op := by
      simpa [RawCommand.wellShaped, hop] using h
    exact .inl ((opcodeFixesOperandTuple c op hop).1.mpr hkinds)

theorem stepCommand_of_wellShaped {c : RawCommand} (h : c.wellShaped = true) (s : State) :
    ∃ t, stepCommand c s = .next t := by
  rcases decode_of_wellShaped h with ⟨i, hd⟩ | hd
  · exact ⟨_, (stepCommand_of_decode_ok hd s).trans (exec_eq_respond i s)⟩
  · exact ⟨s.raise .illegalOp, by rw [stepCommand, hd]⟩

/-- A step from a presentable state is idle, a reset, or a well-shaped command: each answers a state. -/
theorem step_of_presentable {s : State} (hs : s.Presentable) : ∃ t, step s = .next t := by
  rcases hin : s.inbox with _ | ⟨c | _, rest⟩
  · exact ⟨s, step_idle hin⟩
  · rw [step_issue hin]
    exact stepCommand_of_wellShaped (hs c (by simp [hin])) s.taken
  · exact ⟨_, step_reset hin⟩

theorem presentable_of_inbox_eq_drop {s t : State} {n : ℕ} (hs : s.Presentable) (h : t.inbox = s.inbox.drop n) :
    t.Presentable :=
  fun c hc => hs c (List.mem_of_mem_drop (h ▸ hc))

/-- Settles O9, by induction on the number of steps: a step answers a state whose inbox is the tail of the one
before, which is presentable again. -/
theorem presentedCommandsNeverStop : Obligations.PresentedCommandsNeverStop := by
  intro s n hs
  induction n generalizing s with
  | zero => exact ⟨s, rfl, hs, rfl⟩
  | succ n ih =>
    obtain ⟨u, hstep⟩ := step_of_presentable hs
    have hu : u.inbox = s.inbox.drop 1 := (stepKeepsBuildParameters s u hstep).2.trans List.drop_one.symm
    obtain ⟨t, hrun, ht, hinbox⟩ := ih u (presentable_of_inbox_eq_drop hs hu)
    exact ⟨t, (run_succ n hstep).trans hrun, ht, by rw [hinbox, hu, List.drop_drop, Nat.add_comm]⟩

end Sys2Proof.Machine
end

section
/-! PROOF. The statement of spec/70_reset_and_hazards.md: what a reset clears and what it keeps (R107, R109). -/

namespace Sys2Proof.Machine

/-- A step that takes a reset, field by field: `RESP` is cleared and only that input is taken (R107, R109). -/
theorem taken_hostReset_eq {s : State} {rest : List HostEvent} (h : s.inbox = .reset :: rest) :
    s.taken.hostReset = { s with resp := none, inbox := rest } := by
  rw [taken_eq h, State.hostReset]

/-- Settles O1: the step on a reset takes that input and clears `RESP`; the host's read then gives no value. -/
theorem resetClearsResponseOnly : Obligations.ResetClearsResponseOnly := by
  refine ⟨reset_resp, reset_inbox, fun s rest h => ⟨s.taken.hostReset, step_reset h, taken_hostReset_eq h, ?_⟩⟩
  rw [readResp_eq, hostReset_resp]

end Sys2Proof.Machine
end
